-- ==== Sys2Proof/Word.lean ====
section
/-! DEFINITION. The word types of the machine (R8, R9 of 00_scope.md: widths; every quantity is unsigned). -/

namespace Sys2Proof

/-- 8 bits: a general register, a timer, a byte of memory. -/
abbrev Byte := BitVec 8

/-- 16 bits: an instruction word, `pc`, `I`, a stack entry, `FAULT_PC`, `FAULT_INFO`. -/
abbrev Word := BitVec 16

/-- 12 bits: an address of main memory, and the `NNN` field. -/
abbrev Addr := BitVec 12

/-- 4 bits: the number of a general register (the `X` and `Y` fields, `KX`). -/
abbrev RegIdx := BitVec 4

/-- 4 bits: the number of a key (D28: the key number is a 4-bit input). -/
abbrev KeyIdx := BitVec 4

end Sys2Proof
end

