-- ==== Sys2Proof/Syntax.lean ====
section
/-! DEFINITION. The 35 instructions of R94 (30_encoding.md), one constructor per row of spec/opcode_table.json, in its
order. `x` and `y` are the register fields, `nn`, `n` and `nnn` the immediates (R91, R93). -/

namespace Sys2Proof

inductive Instr where
  /-- `SYS NNN` (0NNN), R121. -/
  | sys (nnn : Addr)
  /-- `CLS` (00E0), R180. -/
  | cls
  /-- `RET` (00EE), R122. -/
  | ret
  /-- `JP NNN` (1NNN), R123. -/
  | jp (nnn : Addr)
  /-- `CALL NNN` (2NNN), R124. -/
  | call (nnn : Addr)
  /-- `SE Vx, NN` (3XNN), R125. -/
  | seVxNN (x : RegIdx) (nn : Byte)
  /-- `SNE Vx, NN` (4XNN), R126. -/
  | sneVxNN (x : RegIdx) (nn : Byte)
  /-- `SE Vx, Vy` (5XY0), R127. -/
  | seVxVy (x y : RegIdx)
  /-- `LD Vx, NN` (6XNN), R140. -/
  | ldVxNN (x : RegIdx) (nn : Byte)
  /-- `ADD Vx, NN` (7XNN), R141. -/
  | addVxNN (x : RegIdx) (nn : Byte)
  /-- `LD Vx, Vy` (8XY0), R142. -/
  | ldVxVy (x y : RegIdx)
  /-- `OR Vx, Vy` (8XY1), R143. -/
  | orVxVy (x y : RegIdx)
  /-- `AND Vx, Vy` (8XY2), R144. -/
  | andVxVy (x y : RegIdx)
  /-- `XOR Vx, Vy` (8XY3), R145. -/
  | xorVxVy (x y : RegIdx)
  /-- `ADD Vx, Vy` (8XY4), R146. -/
  | addVxVy (x y : RegIdx)
  /-- `SUB Vx, Vy` (8XY5), R147. -/
  | subVxVy (x y : RegIdx)
  /-- `SHR Vx` (8XY6), R148; `y` is encoded and ignored (R97). -/
  | shrVx (x y : RegIdx)
  /-- `SUBN Vx, Vy` (8XY7), R149. -/
  | subnVxVy (x y : RegIdx)
  /-- `SHL Vx` (8XYE), R150; `y` is encoded and ignored (R97). -/
  | shlVx (x y : RegIdx)
  /-- `SNE Vx, Vy` (9XY0), R128. -/
  | sneVxVy (x y : RegIdx)
  /-- `LD I, NNN` (ANNN), R160. -/
  | ldINNN (nnn : Addr)
  /-- `JP V0, NNN` (BNNN), R129. -/
  | jpV0NNN (nnn : Addr)
  /-- `RND Vx, NN` (CXNN), R151. -/
  | rndVxNN (x : RegIdx) (nn : Byte)
  /-- `DRW Vx, Vy, N` (DXYN), R181. -/
  | drwVxVyN (x y : RegIdx) (n : BitVec 4)
  /-- `SKP Vx` (EX9E), R190. -/
  | skpVx (x : RegIdx)
  /-- `SKNP Vx` (EXA1), R191. -/
  | sknpVx (x : RegIdx)
  /-- `LD Vx, DT` (FX07), R193. -/
  | ldVxDT (x : RegIdx)
  /-- `LD Vx, K` (FX0A), R192. -/
  | ldVxK (x : RegIdx)
  /-- `LD DT, Vx` (FX15), R194. -/
  | ldDTVx (x : RegIdx)
  /-- `LD ST, Vx` (FX18), R195. -/
  | ldSTVx (x : RegIdx)
  /-- `ADD I, Vx` (FX1E), R161. -/
  | addIVx (x : RegIdx)
  /-- `LD F, Vx` (FX29), R162. -/
  | ldFVx (x : RegIdx)
  /-- `LD B, Vx` (FX33), R163. -/
  | ldBVx (x : RegIdx)
  /-- `LD [I], Vx` (FX55), R164. -/
  | ldMemVx (x : RegIdx)
  /-- `LD Vx, [I]` (FX65), R165. -/
  | ldVxMem (x : RegIdx)
  deriving DecidableEq, Repr

end Sys2Proof
end

