-- ==== Sys2Proof/WellFormed.lean ====
section
/-! DEFINITION. Which instruction terms have a word of their own. Every field has exactly the width of its bits and "every
value is legal" (R93 of 30_encoding.md), so the one check is on SYS: its row excludes the words of CLS and RET (R94, R95;
"exclude" in opcode_table.json). -/

namespace Sys2Proof

/-- The `NNN` values the SYS row excludes: 0x0E0 is CLS and 0x0EE is RET (R95, R121). -/
def sysTargetAllowed (nnn : Addr) : Bool := nnn != 0x0E0#12 && nnn != 0x0EE#12

/-- An instruction term that some word decodes to. -/
def Instr.wellFormed (i : Instr) : Bool :=
  match i with
  | .sys nnn => sysTargetAllowed nnn
  | .cls => true
  | .ret => true
  | .jp _ => true
  | .call _ => true
  | .seVxNN _ _ => true
  | .sneVxNN _ _ => true
  | .seVxVy _ _ => true
  | .ldVxNN _ _ => true
  | .addVxNN _ _ => true
  | .ldVxVy _ _ => true
  | .orVxVy _ _ => true
  | .andVxVy _ _ => true
  | .xorVxVy _ _ => true
  | .addVxVy _ _ => true
  | .subVxVy _ _ => true
  | .shrVx _ _ => true
  | .subnVxVy _ _ => true
  | .shlVx _ _ => true
  | .sneVxVy _ _ => true
  | .ldINNN _ => true
  | .jpV0NNN _ => true
  | .rndVxNN _ _ => true
  | .drwVxVyN _ _ _ => true
  | .skpVx _ => true
  | .sknpVx _ => true
  | .ldVxDT _ => true
  | .ldVxK _ => true
  | .ldDTVx _ => true
  | .ldSTVx _ => true
  | .addIVx _ => true
  | .ldFVx _ => true
  | .ldBVx _ => true
  | .ldMemVx _ => true
  | .ldVxMem _ => true

end Sys2Proof
end

