-- ==== Sys2Proof/Decode.lean ====
section
/-! DEFINITION. The decoder of R91 to R98 (30_encoding.md), total on any bytes, the encoder written from the same table, and
the table itself (R94, R101) as rows of mask and match. -/

namespace Sys2Proof

/-! ## Fields of a word (R91) -/

/-- `OP` = w[15:12]. -/
def opField (w : Word) : BitVec 4 := w.extractLsb' 12 4
/-- `NNN` = w[11:0]. -/
def nnnField (w : Word) : Addr := w.extractLsb' 0 12
/-- `NN` = w[7:0]. -/
def nnField (w : Word) : Byte := w.extractLsb' 0 8
/-- `X` = w[11:8] (90_conflicts.md C1: not the positions of the document's §4.2). -/
def xField (w : Word) : RegIdx := w.extractLsb' 8 4
/-- `Y` = w[7:4]. -/
def yField (w : Word) : RegIdx := w.extractLsb' 4 4
/-- `N` = w[3:0]. -/
def nField (w : Word) : BitVec 4 := w.extractLsb' 0 4

/-! ## Decoding -/

/-- Why some bytes are no instruction, by name. -/
inductive DecodeReject where
  /-- Fewer than two bytes were given: every instruction is two bytes (R90). -/
  | truncated
  /-- `DecodeMiss(w)` (R95): the word matches none of the 35 rows. Not an error of the machine: `step` executes it as a
  no-op that advances `pc` by 2 (R96, R130). -/
  | miss (w : Word)
  deriving DecidableEq, Repr

/-- Group 0x0: only the two exact words are CLS and RET; every other word of the group is the SYS row (R94, R95). -/
def decodeGroup0 (w : Word) : Instr :=
  if nnnField w = 0x0E0#12 then .cls
  else if nnnField w = 0x0EE#12 then .ret
  else .sys (nnnField w)

/-- Groups 0x5 and 0x9: the low nibble must be 0 (R95). -/
def decodeIfZeroNibble (w : Word) (i : Instr) : Except DecodeReject Instr :=
  if nField w = 0x0#4 then .ok i else .error (.miss w)

/-- Group 0x8: the low nibble is 0 to 7 or E (R95). -/
def decodeGroup8 (w : Word) : Except DecodeReject Instr :=
  match nField w with
  | 0x0#4 => .ok (.ldVxVy (xField w) (yField w))
  | 0x1#4 => .ok (.orVxVy (xField w) (yField w))
  | 0x2#4 => .ok (.andVxVy (xField w) (yField w))
  | 0x3#4 => .ok (.xorVxVy (xField w) (yField w))
  | 0x4#4 => .ok (.addVxVy (xField w) (yField w))
  | 0x5#4 => .ok (.subVxVy (xField w) (yField w))
  | 0x6#4 => .ok (.shrVx (xField w) (yField w))
  | 0x7#4 => .ok (.subnVxVy (xField w) (yField w))
  | 0xE#4 => .ok (.shlVx (xField w) (yField w))
  | _ => .error (.miss w)

/-- Group 0xE: the low byte is 9E or A1 (R95). -/
def decodeGroupE (w : Word) : Except DecodeReject Instr :=
  match nnField w with
  | 0x9E#8 => .ok (.skpVx (xField w))
  | 0xA1#8 => .ok (.sknpVx (xField w))
  | _ => .error (.miss w)

/-- Group 0xF: the low byte is one of nine values (R95). -/
def decodeGroupF (w : Word) : Except DecodeReject Instr :=
  match nnField w with
  | 0x07#8 => .ok (.ldVxDT (xField w))
  | 0x0A#8 => .ok (.ldVxK (xField w))
  | 0x15#8 => .ok (.ldDTVx (xField w))
  | 0x18#8 => .ok (.ldSTVx (xField w))
  | 0x1E#8 => .ok (.addIVx (xField w))
  | 0x29#8 => .ok (.ldFVx (xField w))
  | 0x33#8 => .ok (.ldBVx (xField w))
  | 0x55#8 => .ok (.ldMemVx (xField w))
  | 0x65#8 => .ok (.ldVxMem (xField w))
  | _ => .error (.miss w)

/-- `decode` of R95 on a 16-bit word. The last arm cannot be reached: the sixteen groups are all there. -/
def decodeWord (w : Word) : Except DecodeReject Instr :=
  match opField w with
  | 0x0#4 => .ok (decodeGroup0 w)
  | 0x1#4 => .ok (.jp (nnnField w))
  | 0x2#4 => .ok (.call (nnnField w))
  | 0x3#4 => .ok (.seVxNN (xField w) (nnField w))
  | 0x4#4 => .ok (.sneVxNN (xField w) (nnField w))
  | 0x5#4 => decodeIfZeroNibble w (.seVxVy (xField w) (yField w))
  | 0x6#4 => .ok (.ldVxNN (xField w) (nnField w))
  | 0x7#4 => .ok (.addVxNN (xField w) (nnField w))
  | 0x8#4 => decodeGroup8 w
  | 0x9#4 => decodeIfZeroNibble w (.sneVxVy (xField w) (yField w))
  | 0xA#4 => .ok (.ldINNN (nnnField w))
  | 0xB#4 => .ok (.jpV0NNN (nnnField w))
  | 0xC#4 => .ok (.rndVxNN (xField w) (nnField w))
  | 0xD#4 => .ok (.drwVxVyN (xField w) (yField w) (nField w))
  | 0xE#4 => decodeGroupE w
  | 0xF#4 => decodeGroupF w
  | _ => .error (.miss w)

/-- The instruction word of two bytes, the first the high byte (R68, R90: big-endian). -/
def wordOfBytes (first second : Byte) : Word := first ++ second

/-- The first byte of a word, w[15:8] (R8). -/
def firstByte (w : Word) : Byte := w.extractLsb' 8 8
/-- The second byte of a word, w[7:0] (R8). -/
def secondByte (w : Word) : Byte := w.extractLsb' 0 8

/-- Decode the instruction at the head of a list of bytes and give the bytes after it. -/
def decodeBytes (bytes : List Byte) : Except DecodeReject (Instr × List Byte) :=
  match bytes with
  | first :: second :: rest =>
    match decodeWord (wordOfBytes first second) with
    | .ok i => .ok (i, rest)
    | .error e => .error e
  | [_] => .error .truncated
  | [] => .error .truncated

/-- The instruction word whose bits, numbered as opcode_table.json numbers them, are the `nbits` bits of `w`; the bits above
are 0. -/
def tableWord (nbits w : Nat) : Word := BitVec.ofNat 16 (w % 2 ^ nbits)

/-- The instruction the decoder reads from a table word laid out in memory order. -/
def decodeTableWord (nbits w : Nat) : Option Instr :=
  match decodeBytes [firstByte (tableWord nbits w), secondByte (tableWord nbits w)] with
  | .ok (i, _) => some i
  | .error _ => none

/-! ## Encoding -/

/-- The word of an instruction (R94: the pattern column). -/
def encode (i : Instr) : Word :=
  match i with
  | .sys nnn => 0x0#4 ++ nnn
  | .cls => 0x00E0#16
  | .ret => 0x00EE#16
  | .jp nnn => 0x1#4 ++ nnn
  | .call nnn => 0x2#4 ++ nnn
  | .seVxNN x nn => 0x3#4 ++ x ++ nn
  | .sneVxNN x nn => 0x4#4 ++ x ++ nn
  | .seVxVy x y => 0x5#4 ++ x ++ y ++ 0x0#4
  | .ldVxNN x nn => 0x6#4 ++ x ++ nn
  | .addVxNN x nn => 0x7#4 ++ x ++ nn
  | .ldVxVy x y => 0x8#4 ++ x ++ y ++ 0x0#4
  | .orVxVy x y => 0x8#4 ++ x ++ y ++ 0x1#4
  | .andVxVy x y => 0x8#4 ++ x ++ y ++ 0x2#4
  | .xorVxVy x y => 0x8#4 ++ x ++ y ++ 0x3#4
  | .addVxVy x y => 0x8#4 ++ x ++ y ++ 0x4#4
  | .subVxVy x y => 0x8#4 ++ x ++ y ++ 0x5#4
  | .shrVx x y => 0x8#4 ++ x ++ y ++ 0x6#4
  | .subnVxVy x y => 0x8#4 ++ x ++ y ++ 0x7#4
  | .shlVx x y => 0x8#4 ++ x ++ y ++ 0xE#4
  | .sneVxVy x y => 0x9#4 ++ x ++ y ++ 0x0#4
  | .ldINNN nnn => 0xA#4 ++ nnn
  | .jpV0NNN nnn => 0xB#4 ++ nnn
  | .rndVxNN x nn => 0xC#4 ++ x ++ nn
  | .drwVxVyN x y n => 0xD#4 ++ x ++ y ++ n
  | .skpVx x => 0xE#4 ++ x ++ 0x9E#8
  | .sknpVx x => 0xE#4 ++ x ++ 0xA1#8
  | .ldVxDT x => 0xF#4 ++ x ++ 0x07#8
  | .ldVxK x => 0xF#4 ++ x ++ 0x0A#8
  | .ldDTVx x => 0xF#4 ++ x ++ 0x15#8
  | .ldSTVx x => 0xF#4 ++ x ++ 0x18#8
  | .addIVx x => 0xF#4 ++ x ++ 0x1E#8
  | .ldFVx x => 0xF#4 ++ x ++ 0x29#8
  | .ldBVx x => 0xF#4 ++ x ++ 0x33#8
  | .ldMemVx x => 0xF#4 ++ x ++ 0x55#8
  | .ldVxMem x => 0xF#4 ++ x ++ 0x65#8

/-! ## The opcode map as data (R94, R101) -/

/-- One row of R94: a word `w` selects it when `w & mask = match`. -/
structure OpcodeRow where
  /-- The row's number in R94. -/
  number : Nat
  mask : Word
  pattern : Word
  deriving DecidableEq, Repr

/-- The row an instruction belongs to, its number, mask and match copied from R94. -/
def Instr.row (i : Instr) : OpcodeRow :=
  match i with
  | .sys _ => ⟨1, 0xF000#16, 0x0000#16⟩
  | .cls => ⟨2, 0xFFFF#16, 0x00E0#16⟩
  | .ret => ⟨3, 0xFFFF#16, 0x00EE#16⟩
  | .jp _ => ⟨4, 0xF000#16, 0x1000#16⟩
  | .call _ => ⟨5, 0xF000#16, 0x2000#16⟩
  | .seVxNN _ _ => ⟨6, 0xF000#16, 0x3000#16⟩
  | .sneVxNN _ _ => ⟨7, 0xF000#16, 0x4000#16⟩
  | .seVxVy _ _ => ⟨8, 0xF00F#16, 0x5000#16⟩
  | .ldVxNN _ _ => ⟨9, 0xF000#16, 0x6000#16⟩
  | .addVxNN _ _ => ⟨10, 0xF000#16, 0x7000#16⟩
  | .ldVxVy _ _ => ⟨11, 0xF00F#16, 0x8000#16⟩
  | .orVxVy _ _ => ⟨12, 0xF00F#16, 0x8001#16⟩
  | .andVxVy _ _ => ⟨13, 0xF00F#16, 0x8002#16⟩
  | .xorVxVy _ _ => ⟨14, 0xF00F#16, 0x8003#16⟩
  | .addVxVy _ _ => ⟨15, 0xF00F#16, 0x8004#16⟩
  | .subVxVy _ _ => ⟨16, 0xF00F#16, 0x8005#16⟩
  | .shrVx _ _ => ⟨17, 0xF00F#16, 0x8006#16⟩
  | .subnVxVy _ _ => ⟨18, 0xF00F#16, 0x8007#16⟩
  | .shlVx _ _ => ⟨19, 0xF00F#16, 0x800E#16⟩
  | .sneVxVy _ _ => ⟨20, 0xF00F#16, 0x9000#16⟩
  | .ldINNN _ => ⟨21, 0xF000#16, 0xA000#16⟩
  | .jpV0NNN _ => ⟨22, 0xF000#16, 0xB000#16⟩
  | .rndVxNN _ _ => ⟨23, 0xF000#16, 0xC000#16⟩
  | .drwVxVyN _ _ _ => ⟨24, 0xF000#16, 0xD000#16⟩
  | .skpVx _ => ⟨25, 0xF0FF#16, 0xE09E#16⟩
  | .sknpVx _ => ⟨26, 0xF0FF#16, 0xE0A1#16⟩
  | .ldVxDT _ => ⟨27, 0xF0FF#16, 0xF007#16⟩
  | .ldVxK _ => ⟨28, 0xF0FF#16, 0xF00A#16⟩
  | .ldDTVx _ => ⟨29, 0xF0FF#16, 0xF015#16⟩
  | .ldSTVx _ => ⟨30, 0xF0FF#16, 0xF018#16⟩
  | .addIVx _ => ⟨31, 0xF0FF#16, 0xF01E#16⟩
  | .ldFVx _ => ⟨32, 0xF0FF#16, 0xF029#16⟩
  | .ldBVx _ => ⟨33, 0xF0FF#16, 0xF033#16⟩
  | .ldMemVx _ => ⟨34, 0xF0FF#16, 0xF055#16⟩
  | .ldVxMem _ => ⟨35, 0xF0FF#16, 0xF065#16⟩

/-- One instruction of every row, in the order R101 tries them: rows 2 to 35, the SYS row last. -/
def rowRepresentatives : List Instr :=
  [.cls, .ret, .jp 0, .call 0, .seVxNN 0 0, .sneVxNN 0 0, .seVxVy 0 0, .ldVxNN 0 0, .addVxNN 0 0] ++
  [.ldVxVy 0 0, .orVxVy 0 0, .andVxVy 0 0, .xorVxVy 0 0, .addVxVy 0 0, .subVxVy 0 0, .shrVx 0 0] ++
  [.subnVxVy 0 0, .shlVx 0 0, .sneVxVy 0 0, .ldINNN 0, .jpV0NNN 0, .rndVxNN 0 0, .drwVxVyN 0 0 0] ++
  [.skpVx 0, .sknpVx 0, .ldVxDT 0, .ldVxK 0, .ldDTVx 0, .ldSTVx 0, .addIVx 0, .ldFVx 0, .ldBVx 0] ++
  [.ldMemVx 0, .ldVxMem 0, .sys 0]

/-- The rows in the order R101 tries them. -/
def opcodeTable : List OpcodeRow := rowRepresentatives.map Instr.row

/-- `w & mask = match` (R94). -/
def OpcodeRow.selects (row : OpcodeRow) (w : Word) : Bool := w &&& row.mask == row.pattern

/-- R101: the first row that selects the word, if any. -/
def selectRow (w : Word) : Option OpcodeRow := opcodeTable.find? (·.selects w)

end Sys2Proof
end

