-- ==== Sys2Proof/Config.lean ====
section
/-! DEFINITION. The implementation parameters of R6 (00_scope.md) that rules use by name, and the one free value.
`SHIFT_USES_VY`, `JUMP_OFFSET_USES_VX`, `LOADSTORE_INCREMENTS_I`, `LOGIC_CLEARS_VF` and `DRAW_WRAPS` are fixed by R6 and
"are not run-time switches": they live in the meanings. `TICK_HZ` is used by no rule. -/

namespace Sys2Proof.Config

/-- Reset value of `pc`, load address of the image, and lowest address that can be fetched from or stored to (R6). -/
def progBase : Nat := 0x200

/-- Highest address of the first byte of an instruction (R70: `pc <= 0xFFE`). -/
def lastFetch : Nat := 0xFFE

/-- Longest program image in bytes (R6, R262). -/
def progMax : Nat := 3584

/-- The random byte of the n-th execution of RND (R151: a draw "under no law"). A FREE VALUE: it has no body, so nothing
can be proved of the byte it gives. Log entry 1. -/
opaque randomByte : Nat → Byte

end Sys2Proof.Config
end

