-- ==== Sys2Proof/Machine/State.lean ====
section
/-! DEFINITION. The complete state of the core (R20 of 10_state.md) as plain data, the reasons a step can stop, and the
state after reset (R40 of 10_state.md, R260 of 70_reset_and_hazards.md with the empty image). -/

namespace Sys2Proof.Machine

/-- Main memory as its cells that differ from the reset content, by rising address (R30; the read and write operations and
the canonical form are in Machine/Ops.lean). -/
abbrev Memory := List Host.Cell

/-- `FB[row][col]`: 32 rows of 64 one-bit pixels, row 0 at the top, column 0 at the left (R31). -/
abbrev Framebuffer := Vector (Vector Bool 64) 32

/-- `RUN`, the state of the execute engine (R33). -/
inductive RunState where
  /-- Executes one instruction per `step`. -/
  | running
  /-- Every `step` is a no-op until a `keyDown`. -/
  | awaitingKey
  /-- A fault has occurred; every `step` is a no-op until `init`. -/
  | faulted
  deriving DecidableEq, Repr

/-- `FAULT.code`, the causes of R221 (60_exceptions.md). -/
inductive FaultCode where
  /-- 0: no fault has occurred. -/
  | noFault
  /-- 1: CALL with `SP = 16`. -/
  | stackOverflow
  /-- 2: RET with `SP = 0`. -/
  | stackUnderflow
  /-- 3: `step` with `pc` outside 0x200 to 0xFFE. -/
  | fetchOutOfRange
  /-- 4: LD B or LD [I] with a target address at or below 0x1FF. -/
  | protectedWrite
  deriving DecidableEq, Repr

/-- `FAULT`, the fault latch (R35): the code, `FAULT_PC` and `FAULT_INFO`. -/
structure FaultLatch where
  code : FaultCode
  pc : Word
  info : Word
  deriving DecidableEq, Repr

/-- The complete state of the core (R20): "a model's state type has exactly these fields". It is the state type of the
labelled transition system of R200 (`CoreState.transition` in Machine/HostOps.lean). -/
structure CoreState where
  /-- `x[0..15]`, the general registers (R21); `x[15]` is the flag (R22). -/
  regs : Vector Byte 16
  /-- `I`, the address register (R23). -/
  I : Word
  /-- `pc`, the address of the next instruction; of the instruction itself while it executes (R24). -/
  pc : Word
  /-- `SP`, the number of return addresses on the stack, 0 to 16 (R26). -/
  sp : Fin 17
  /-- `STACK[0..15]`, the private call stack; a pop leaves its entry in place (R27). -/
  stack : Vector Word 16
  /-- `DT`, the delay timer (R28). -/
  dt : Byte
  /-- `ST`, the sound timer (R29). -/
  st : Byte
  /-- `MEM[0..4095]` (R30). -/
  mem : Memory
  /-- `FB` (R31). -/
  fb : Framebuffer
  /-- `KEY[0..15]`, `true` means down (R32). -/
  key : Vector Bool 16
  /-- `RUN` (R33). -/
  run : RunState
  /-- `KX`, the target register of the key wait (R34). -/
  kx : RegIdx
  /-- `FAULT` (R35). -/
  fault : FaultLatch
  deriving DecidableEq, Repr

/-- The core together with its random source, for a `step` that takes no input: the core's state and how many bytes the
source has given. The counter is THE MODEL'S OWN and no state of the core (R39); it numbers the free values
`Config.randomByte` (R151). Log entries 1 and 2. -/
structure State extends CoreState where
  /-- How many random bytes RND has drawn. -/
  draws : Nat
  deriving DecidableEq, Repr

/-- Reasons a step stops WITHOUT a next state. None exists: each of the four faults of R221 is latched in `FAULT` and is a
next state (R222), and every access the machine can make is to an address that exists (R65, R67). Log entry 3. -/
inductive Fault
  deriving DecidableEq, Repr

/-- Reasons the model has no meaning for an instruction. -/
inductive Refusal where
  /-- Raised by an arm of `exec` whose instruction has no meaning yet, by its name in opcode_table.json. Safe: nothing can
  be proved of such a step. No arm raises it: all 35 have their meaning. -/
  | notModelled (mnemonic : String)
  deriving DecidableEq, Repr

/-- The state after `init` with the empty image (R40, R260, R263). Memory lists nothing: its reset content (the font, then
zeros) is what an unlisted address reads as. `draws` starts at 0 (DESIGN CHOICE, log entry 2). -/
def State.reset : State where
  regs := Vector.replicate 16 0#8
  I := 0x0000#16
  pc := 0x0200#16
  sp := 0
  stack := Vector.replicate 16 0x0000#16
  dt := 0x00#8
  st := 0x00#8
  mem := []
  fb := Vector.replicate 32 (Vector.replicate 64 false)
  key := Vector.replicate 16 false
  run := .running
  kx := 0x0#4
  fault := ⟨.noFault, 0x0000#16, 0x0000#16⟩
  draws := 0

end Sys2Proof.Machine
end

