-- ==== Sys2Proof/Machine/Ops.lean ====
section
/-! DEFINITION. The named operations over memory, registers, program counter, stack, framebuffer and keys, and taking a
fault (R222 of 60_exceptions.md). There is no return from a fault but `init` (R225), which is in Machine/HostOps.lean. -/

namespace Sys2Proof.Machine

/-! ## Memory (20_memory.md) -/

/-- The 80 bytes of the font, glyph by glyph (R63). -/
def fontGlyphs : List (List Byte) :=
  [[0xF0, 0x90, 0x90, 0x90, 0xF0], [0x20, 0x60, 0x20, 0x20, 0x70], [0xF0, 0x10, 0xF0, 0x80, 0xF0]] ++
  [[0xF0, 0x10, 0xF0, 0x10, 0xF0], [0x90, 0x90, 0xF0, 0x10, 0x10], [0xF0, 0x80, 0xF0, 0x10, 0xF0]] ++
  [[0xF0, 0x80, 0xF0, 0x90, 0xF0], [0xF0, 0x10, 0x20, 0x40, 0x40], [0xF0, 0x90, 0xF0, 0x90, 0xF0]] ++
  [[0xF0, 0x90, 0xF0, 0x10, 0xF0], [0xF0, 0x90, 0xF0, 0x90, 0x90], [0xE0, 0x90, 0xE0, 0x90, 0xE0]] ++
  [[0xF0, 0x80, 0x80, 0x80, 0xF0], [0xE0, 0x90, 0x90, 0x90, 0xE0], [0xF0, 0x80, 0xF0, 0x80, 0xF0]] ++
  [[0xF0, 0x80, 0xF0, 0x80, 0x80]]

/-- `FONT_BASE` (R6, R62). -/
def fontBase : Nat := 0x000

/-- `FONT_STRIDE`, the bytes of a glyph (R6). -/
def fontStride : Nat := 5

/-- What an address reads as when nothing has been stored there since `init` with the empty image: the font at 0x000 to
0x04F, zero everywhere else (R40, R62 to R64). -/
def Memory.background (a : Nat) : Byte :=
  if a < fontBase then 0x00#8 else fontGlyphs.flatten.getD (a - fontBase) 0x00#8

/-- The byte at an address of the cell list. -/
def Memory.readAt (m : Memory) (a : Nat) : Byte :=
  match m with
  | [] => Memory.background a
  | cell :: rest => if cell.1 = a then cell.2 else Memory.readAt rest a

/-- `MemRead(a, 1)` (R65). -/
def Memory.read (m : Memory) (a : Addr) : Byte := Memory.readAt m a.toNat

/-- Put a cell before the first cell of a higher address. -/
def Memory.insertCell (m : Memory) (cell : Host.Cell) : Memory :=
  match m with
  | [] => [cell]
  | head :: rest => if cell.1 < head.1 then cell :: head :: rest else head :: Memory.insertCell rest cell

/-- `MEM[a] <- v`: the old cell goes, and a cell comes unless the byte is what the address reads as unlisted. -/
def Memory.write (m : Memory) (a : Addr) (v : Byte) : Memory :=
  let others := List.filter (fun cell => cell.1 != a.toNat) m
  if v = Memory.background a.toNat then others else Memory.insertCell others (a.toNat, v)

/-- The writes of a list of cells, in its order (R71: ascending `k`; R73). -/
def Memory.writeAll (m : Memory) (cells : List (Addr × Byte)) : Memory :=
  cells.foldl (fun acc cell => Memory.write acc cell.1 cell.2) m

/-- The addresses of a cell list rise strictly. -/
def Memory.rising : Memory → Bool
  | [] => true
  | [_] => true
  | a :: b :: rest => decide (a.1 < b.1) && Memory.rising (b :: rest)

/-- The canonical form: addresses strictly rising and inside the 4096-byte space, and no cell equal to what its address
reads as unlisted. -/
def Memory.wf (m : Memory) : Bool :=
  Memory.rising m && m.all (fun cell => decide (cell.1 < 4096) && cell.2 != Memory.background cell.1)

/-- `addr <= 0x1FF`: the protected font region (R61, R66). -/
def protectedAddr (a : Addr) : Bool := decide (a.toNat < Config.progBase)

/-- `MemRead(a, 1)` in a state. -/
def State.readByte (s : State) (a : Addr) : Byte := Memory.read s.mem a

/-! ## Registers and program counter (10_state.md) -/

/-- `x[r]`. -/
def State.readReg (s : State) (r : RegIdx) : Byte := s.regs[r.toNat]'r.isLt

/-- `x[r] <- v`. -/
def State.writeReg (s : State) (r : RegIdx) (v : Byte) : State := { s with regs := s.regs.set r.toNat v r.isLt }

/-- `VF`, the flag register, is `x[15]` (R22). -/
def flagReg : RegIdx := 0xF#4

/-- `I <- v`. -/
def State.setI (s : State) (v : Word) : State := { s with I := v }

/-- `pc <- target`. -/
def State.setPc (s : State) (target : Word) : State := { s with pc := target }

/-- `pc <- pc + 2`, what every instruction does that neither sets `pc` nor skips (R25). -/
def State.advance (s : State) : State := s.setPc (s.pc + 2#16)

/-- A conditional skip: `pc + 4` when the condition holds, else `pc + 2` (R25). The skipped bytes are not looked at. -/
def State.skipIf (s : State) (cond : Bool) : State := s.setPc (if cond then s.pc + 4#16 else s.pc + 2#16)

/-! ## Faults (60_exceptions.md) -/

/-- `raise <Fault>(info)` (R222): latch the code, the `pc` of the step and the detail word, and enter Faulted. Nothing else
changes and `pc` does not advance. -/
def State.raise (s : State) (code : FaultCode) (info : Word) : State :=
  { s with fault := ⟨code, s.pc, info⟩, run := .faulted }

/-! ## Call stack (R26, R27) -/

/-- Push a return address, unless the stack is full. -/
def State.push (s : State) (ret : Word) : Option State :=
  if h : s.sp.val < 16 then
    some { s with stack := s.stack.set s.sp.val ret h, sp := ⟨s.sp.val + 1, by omega⟩ }
  else none

/-- Pop the last return address, unless the stack is empty; the entry keeps its value (R27). -/
def State.pop (s : State) : Option (Word × State) :=
  if h : 0 < s.sp.val then
    some (s.stack[s.sp.val - 1]'(by omega), { s with sp := ⟨s.sp.val - 1, by omega⟩ })
  else none

/-! ## Fetch (R68, R70, R90) -/

/-- `0x200 <= pc <= 0xFFE` (R70). -/
def State.fetchInRange (s : State) : Bool := decide (Config.progBase ≤ s.pc.toNat ∧ s.pc.toNat ≤ Config.lastFetch)

/-- `MemRead(a, 2)` (R65): `{MEM[a], MEM[a + 1]}`, the first byte high. -/
def State.readWord (s : State) (a : Addr) : Word := wordOfBytes (s.readByte a) (s.readByte (a + 1#12))

/-- `pc[11:0]`, the fetch address (R90). -/
def State.fetchAddr (s : State) : Addr := s.pc.extractLsb' 0 12

/-- The instruction word at `pc` (R90). -/
def State.fetchWord (s : State) : Word := s.readWord s.fetchAddr

/-! ## Stores and loads of consecutive bytes -/

/-- A store (R66, R163, R164): every target is checked before any byte is written. The first protected target, in the
order of the list, is raised as `ProtectedWrite`; otherwise all bytes are written and `pc` advances. -/
def State.storeCells (s : State) (cells : List (Addr × Byte)) : State :=
  match cells.find? (fun cell => protectedAddr cell.1) with
  | some cell => s.raise .protectedWrite (cell.1.setWidth 16)
  | none => { s with mem := Memory.writeAll s.mem cells }.advance

/-- The writes of a list of registers, in its order. -/
def State.writeRegs (s : State) (cells : List (RegIdx × Byte)) : State :=
  cells.foldl (fun acc cell => acc.writeReg cell.1 cell.2) s

/-! ## Framebuffer and keys (R31, R32) -/

/-- `FB[row][col]`. -/
def Framebuffer.pixel (fb : Framebuffer) (row : Fin 32) (col : Fin 64) : Bool := fb[row][col]

/-- `FB[row][col] <- FB[row][col] xor 1`. -/
def Framebuffer.toggle (fb : Framebuffer) (row : Fin 32) (col : Fin 64) : Framebuffer :=
  fb.set row (fb[row].set col (!fb[row][col]))

/-- All pixels 0 (R180). -/
def Framebuffer.blank : Framebuffer := Vector.replicate 32 (Vector.replicate 64 false)

/-- One set sprite bit drawn (R181): a lit pixel there is a collision, and the pixel is toggled. -/
def drawPixel (acc : Framebuffer × Bool) (at_ : Fin 32 × Fin 64) : Framebuffer × Bool :=
  (acc.1.toggle at_.1 at_.2, acc.2 || acc.1.pixel at_.1 at_.2)

/-- The set sprite bits drawn one by one, with the collision found on the way (R181). -/
def drawPixels (fb : Framebuffer) (pixels : List (Fin 32 × Fin 64)) : Framebuffer × Bool :=
  pixels.foldl drawPixel (fb, false)

/-- `KEY[k] <- v`. -/
def State.setKey (s : State) (k : KeyIdx) (v : Bool) : State := { s with key := s.key.set k.toNat v k.isLt }

/-- `KEY[k]`. -/
def State.readKey (s : State) (k : KeyIdx) : Bool := s.key[k.toNat]'k.isLt

end Sys2Proof.Machine
end

