-- ==== Sys2Proof/Machine/Flags.lean ====
section
/-! DEFINITION. The flag of each flag-writing instruction (R22 of 10_state.md) and the order in which it is written. -/

namespace Sys2Proof.Machine

/-- A flag as the byte written to `x[15]`: 1 or 0. -/
def flagByte (flag : Bool) : Byte := if flag then 0x01#8 else 0x00#8

/-- Carry of ADD: the untruncated sum exceeds 255 (R146). -/
def addCarry (a b : Byte) : Bool := decide (255 < a.toNat + b.toNat)

/-- No borrow of SUB and SUBN: minuend at least subtrahend (R147, R149). -/
def noBorrow (minuend subtrahend : Byte) : Bool := decide (subtrahend.toNat ≤ minuend.toNat)

/-- The bit SHR shifts out: bit 0 (R148). -/
def shrOut (a : Byte) : Bool := a.getLsbD 0

/-- The bit SHL shifts out: bit 7 (R150). -/
def shlOut (a : Byte) : Bool := a.getLsbD 7

/-- Write a result and then the flag: with `X` = 15 the result is lost (R10, R153). -/
def State.writeResultThenFlag (s : State) (x : RegIdx) (result : Byte) (flag : Bool) : State :=
  (s.writeReg x result).writeReg flagReg (flagByte flag)

end Sys2Proof.Machine
end

