-- ==== Sys2Proof/Machine/Operands.lean ====
section
/-! DEFINITION. Every operand form: immediates, the effective address, register blocks, the key a register names, decimal
digits, glyph addresses and the pixels of a sprite. -/

namespace Sys2Proof.Machine

/-- `zext_16(NNN)` (R93). -/
def zextAddr (nnn : Addr) : Word := nnn.setWidth 16

/-- `zext_16(v)` of a byte (R93). -/
def zextByte (v : Byte) : Word := v.setWidth 16

/-- `EA(k) = (I + k) mod 4096`, the sum on unbounded integers (R67). -/
def State.ea (s : State) (k : Nat) : Addr := BitVec.ofNat 12 (s.I.toNat + k)

/-- The numbers of the registers `x[0] .. x[X]` (R21: the inclusive block of the transfers). -/
def blockRegs (x : RegIdx) : List RegIdx := (List.range (x.toNat + 1)).map (BitVec.ofNat 4)

/-- The cells LD [I],Vx stores: `x[k]` at `EA(k)`, k = 0 to X (R164). -/
def State.blockCells (s : State) (x : RegIdx) : List (Addr × Byte) :=
  (blockRegs x).map (fun r => (s.ea r.toNat, s.readReg r))

/-- The registers LD Vx,[I] loads: `x[k]` from `EA(k)`, k = 0 to X (R165). -/
def State.blockLoads (s : State) (x : RegIdx) : List (RegIdx × Byte) :=
  (blockRegs x).map (fun r => (r, s.readByte (s.ea r.toNat)))

/-- Hundreds, tens and units of a value, each as a byte (R163). -/
def bcdDigits (v : Byte) : List Byte :=
  [BitVec.ofNat 8 (v.toNat / 100), BitVec.ofNat 8 (v.toNat / 10 % 10), BitVec.ofNat 8 (v.toNat % 10)]

/-- The cells LD B,Vx stores: the digits at `EA(0)`, `EA(1)`, `EA(2)` (R163). -/
def State.bcdCells (s : State) (v : Byte) : List (Addr × Byte) :=
  [s.ea 0, s.ea 1, s.ea 2].zip (bcdDigits v)

/-- `FONT_BASE + 5 * v`, on all 8 bits of the value (R162). -/
def glyphAddr (v : Byte) : Word := BitVec.ofNat 16 (fontBase + fontStride * v.toNat)

/-- `(k <= 15) and (KEY[k] = 1)`: a value above 15 names no key and counts as not pressed (R190, R226). -/
def State.keyPressed (s : State) (v : Byte) : Bool :=
  if h : v.toNat < 16 then s.key[v.toNat] else false

/-- The framebuffer row of sprite row `r` (R182). -/
def spriteRow (vy : Byte) (r : Nat) : Fin 32 := Fin.ofNat 32 (vy.toNat + r)

/-- The framebuffer column of sprite column `j` (R182). -/
def spriteCol (vx : Byte) (j : Nat) : Fin 64 := Fin.ofNat 64 (vx.toNat + j)

/-- The sprite bit at sprite row `r` and column `j`: bit `7 - j` of the byte at `EA(r)` (R181, R182). -/
def State.spriteBit (s : State) (r j : Nat) : Bool := (s.readByte (s.ea r)).getLsbD (7 - j)

/-- The pixels of the set bits of one sprite row, left to right (R181: the inner loop). -/
def State.spriteRowPixels (s : State) (vx vy : Byte) (r : Nat) : List (Fin 32 × Fin 64) :=
  ((List.range 8).filter (fun j => s.spriteBit r j)).map (fun j => (spriteRow vy r, spriteCol vx j))

/-- The pixels of the set bits of the sprite's `n` rows, top to bottom (R181: the outer loop). -/
def State.spritePixels (s : State) (vx vy : Byte) (n : BitVec 4) : List (Fin 32 × Fin 64) :=
  (List.range n.toNat).flatMap (fun r => s.spriteRowPixels vx vy r)

end Sys2Proof.Machine
end

