-- ==== Sys2Proof/Machine/Alu.lean ====
section
/-! DEFINITION. Register, arithmetic, logic, shift and random instructions (41_alu.md). All source operands are read from the
state before the instruction (R10). -/

namespace Sys2Proof.Machine

open Host (Outcome)

/-- `LD Vx, NN` (R140). -/
def execLdVxNN (x : RegIdx) (nn : Byte) (s : State) : Outcome State Fault Refusal := .next (s.writeReg x nn).advance

/-- `ADD Vx, NN` (R141): no flag. -/
def execAddVxNN (x : RegIdx) (nn : Byte) (s : State) : Outcome State Fault Refusal :=
  .next (s.writeReg x (s.readReg x + nn)).advance

/-- `LD Vx, Vy` (R142). -/
def execLdVxVy (x y : RegIdx) (s : State) : Outcome State Fault Refusal := .next (s.writeReg x (s.readReg y)).advance

/-- `OR Vx, Vy` (R143): `x[15]` is not written as a flag. -/
def execOrVxVy (x y : RegIdx) (s : State) : Outcome State Fault Refusal :=
  .next (s.writeReg x (s.readReg x ||| s.readReg y)).advance

/-- `AND Vx, Vy` (R144): `x[15]` is not written as a flag. -/
def execAndVxVy (x y : RegIdx) (s : State) : Outcome State Fault Refusal :=
  .next (s.writeReg x (s.readReg x &&& s.readReg y)).advance

/-- `XOR Vx, Vy` (R145): `x[15]` is not written as a flag. -/
def execXorVxVy (x y : RegIdx) (s : State) : Outcome State Fault Refusal :=
  .next (s.writeReg x (s.readReg x ^^^ s.readReg y)).advance

/-- `ADD Vx, Vy` (R146): carry flag. -/
def execAddVxVy (x y : RegIdx) (s : State) : Outcome State Fault Refusal :=
  .next (s.writeResultThenFlag x (s.readReg x + s.readReg y) (addCarry (s.readReg x) (s.readReg y))).advance

/-- `SUB Vx, Vy` (R147): `x[X] - x[Y]`, no-borrow flag. -/
def execSubVxVy (x y : RegIdx) (s : State) : Outcome State Fault Refusal :=
  .next (s.writeResultThenFlag x (s.readReg x - s.readReg y) (noBorrow (s.readReg x) (s.readReg y))).advance

/-- `SHR Vx` (R148): `Y` is ignored. -/
def execShrVx (x _y : RegIdx) (s : State) : Outcome State Fault Refusal :=
  .next (s.writeResultThenFlag x (s.readReg x >>> 1) (shrOut (s.readReg x))).advance

/-- `SUBN Vx, Vy` (R149): `x[Y] - x[X]`, no-borrow flag. -/
def execSubnVxVy (x y : RegIdx) (s : State) : Outcome State Fault Refusal :=
  .next (s.writeResultThenFlag x (s.readReg y - s.readReg x) (noBorrow (s.readReg y) (s.readReg x))).advance

/-- `SHL Vx` (R150): `Y` is ignored. -/
def execShlVx (x _y : RegIdx) (s : State) : Outcome State Fault Refusal :=
  .next (s.writeResultThenFlag x (s.readReg x <<< 1) (shlOut (s.readReg x))).advance

/-- RND with the drawn byte as an argument (R151: "a model makes `r` a free input of the step"). -/
def State.rndWith (s : State) (x : RegIdx) (nn r : Byte) : State :=
  { s.writeReg x (r &&& nn) with draws := s.draws + 1 }.advance

/-- `RND Vx, NN` (R151): the byte is the free value of this draw (log entry 1). -/
def execRndVxNN (x : RegIdx) (nn : Byte) (s : State) : Outcome State Fault Refusal :=
  .next (s.rndWith x nn (Config.randomByte s.draws))

end Sys2Proof.Machine
end

