-- ==== Sys2Proof/Machine/Control.lean ====
section
/-! DEFINITION. Control transfer, the decode miss (40_control.md) and the course of a step (45_host_operations.md). Inside a meaning `s.pc` is the address of the
instruction (R120). -/

namespace Sys2Proof.Machine

open Host (Outcome)

/-- `SYS NNN` (R121): a no-op. -/
def execSys (_nnn : Addr) (s : State) : Outcome State Fault Refusal := .next s.advance

/-- `RET` (R122): pop the return address into `pc`, or raise `StackUnderflow(0)`. -/
def execRet (s : State) : Outcome State Fault Refusal :=
  match s.pop with
  | some (ret, popped) => .next (popped.setPc ret)
  | none => .next (s.raise .stackUnderflow 0x0000#16)

/-- `JP NNN` (R123). -/
def execJp (nnn : Addr) (s : State) : Outcome State Fault Refusal := .next (s.setPc (zextAddr nnn))

/-- `CALL NNN` (R124): push `pc + 2` and jump, or raise `StackOverflow(NNN)`. -/
def execCall (nnn : Addr) (s : State) : Outcome State Fault Refusal :=
  match s.push (s.pc + 2#16) with
  | some pushed => .next (pushed.setPc (zextAddr nnn))
  | none => .next (s.raise .stackOverflow (zextAddr nnn))

/-- `SE Vx, NN` (R125). -/
def execSeVxNN (x : RegIdx) (nn : Byte) (s : State) : Outcome State Fault Refusal :=
  .next (s.skipIf (s.readReg x == nn))

/-- `SNE Vx, NN` (R126). -/
def execSneVxNN (x : RegIdx) (nn : Byte) (s : State) : Outcome State Fault Refusal :=
  .next (s.skipIf (s.readReg x != nn))

/-- `SE Vx, Vy` (R127). -/
def execSeVxVy (x y : RegIdx) (s : State) : Outcome State Fault Refusal :=
  .next (s.skipIf (s.readReg x == s.readReg y))

/-- `SNE Vx, Vy` (R128). -/
def execSneVxVy (x y : RegIdx) (s : State) : Outcome State Fault Refusal :=
  .next (s.skipIf (s.readReg x != s.readReg y))

/-- `JP V0, NNN` (R129): the sum is at most 0x10FE and is not reduced modulo 4096. -/
def execJpV0NNN (nnn : Addr) (s : State) : Outcome State Fault Refusal :=
  .next (s.setPc (zextAddr nnn + zextByte (s.readReg 0x0#4)))

/-- A decode miss (R130): `pc` advances by 2 and nothing else changes. -/
def execMiss (s : State) : Outcome State Fault Refusal := .next s.advance

/-- `step` of R201, with the way an instruction executes as an argument: run state, fetch range, fetch, decode, execute, in
the order of R224 (60_exceptions.md). -/
def stepBy (execute : Instr → State → Outcome State Fault Refusal) (s : State) : Outcome State Fault Refusal :=
  match s.run with
  | .awaitingKey => .next s
  | .faulted => .next s
  | .running =>
    if s.fetchInRange then
      match decodeWord s.fetchWord with
      | .ok i => execute i s
      | .error _ => execMiss s
    else .next (s.raise .fetchOutOfRange s.pc)

end Sys2Proof.Machine
end

