-- ==== Sys2Proof/Machine/Display.lean ====
section
/-! DEFINITION. Display instructions (43_display.md). The `render` result is an output of `step`, in Machine/HostOps.lean. -/

namespace Sys2Proof.Machine

open Host (Outcome)

/-- `CLS` (R180). -/
def execCls (s : State) : Outcome State Fault Refusal := .next { s with fb := Framebuffer.blank }.advance

/-- `DRW Vx, Vy, N` (R181): XOR the sprite onto the framebuffer, then write the collision to `x[15]`. -/
def execDrwVxVyN (x y : RegIdx) (n : BitVec 4) (s : State) : Outcome State Fault Refusal :=
  let drawn := drawPixels s.fb (s.spritePixels (s.readReg x) (s.readReg y) n)
  .next ({ s with fb := drawn.1 }.writeReg flagReg (flagByte drawn.2)).advance

end Sys2Proof.Machine
end

