-- ==== Sys2Proof/Machine/KeypadTimers.lean ====
section
/-! DEFINITION. Keypad and timer instructions (44_keypad_timers.md). -/

namespace Sys2Proof.Machine

open Host (Outcome)

/-- `SKP Vx` (R190). -/
def execSkpVx (x : RegIdx) (s : State) : Outcome State Fault Refusal := .next (s.skipIf (s.keyPressed (s.readReg x)))

/-- `SKNP Vx` (R191). -/
def execSknpVx (x : RegIdx) (s : State) : Outcome State Fault Refusal := .next (s.skipIf (!s.keyPressed (s.readReg x)))

/-- `LD Vx, K` (R192): enter AwaitingKey; `x[X]` is written by the `keyDown` that resolves the wait. -/
def execLdVxK (x : RegIdx) (s : State) : Outcome State Fault Refusal :=
  .next { s with kx := x, run := .awaitingKey }.advance

/-- `LD Vx, DT` (R193). -/
def execLdVxDT (x : RegIdx) (s : State) : Outcome State Fault Refusal := .next (s.writeReg x s.dt).advance

/-- `LD DT, Vx` (R194). -/
def execLdDTVx (x : RegIdx) (s : State) : Outcome State Fault Refusal := .next { s with dt := s.readReg x }.advance

/-- `LD ST, Vx` (R195). -/
def execLdSTVx (x : RegIdx) (s : State) : Outcome State Fault Refusal := .next { s with st := s.readReg x }.advance

end Sys2Proof.Machine
end

