-- ==== Sys2Proof/Machine/MemoryIndex.lean ====
section
/-! DEFINITION. Address-register and memory instructions (42_memory_index.md). -/

namespace Sys2Proof.Machine

open Host (Outcome)

/-- `LD I, NNN` (R160). -/
def execLdINNN (nnn : Addr) (s : State) : Outcome State Fault Refusal := .next (s.setI (zextAddr nnn)).advance

/-- `ADD I, Vx` (R161): modulo 65536, no flag. -/
def execAddIVx (x : RegIdx) (s : State) : Outcome State Fault Refusal :=
  .next (s.setI (s.I + zextByte (s.readReg x))).advance

/-- `LD F, Vx` (R162). -/
def execLdFVx (x : RegIdx) (s : State) : Outcome State Fault Refusal := .next (s.setI (glyphAddr (s.readReg x))).advance

/-- `LD B, Vx` (R163): three digits at `EA(0)`, `EA(1)`, `EA(2)`, or `ProtectedWrite`. -/
def execLdBVx (x : RegIdx) (s : State) : Outcome State Fault Refusal := .next (s.storeCells (s.bcdCells (s.readReg x)))

/-- `LD [I], Vx` (R164): `x[0] .. x[X]` at `EA(0) .. EA(X)`, or `ProtectedWrite`; `I` unchanged. -/
def execLdMemVx (x : RegIdx) (s : State) : Outcome State Fault Refusal := .next (s.storeCells (s.blockCells x))

/-- `LD Vx, [I]` (R165): `x[0] .. x[X]` from `EA(0) .. EA(X)`; `I` unchanged. -/
def execLdVxMem (x : RegIdx) (s : State) : Outcome State Fault Refusal := .next (s.writeRegs (s.blockLoads x)).advance

end Sys2Proof.Machine
end

