-- ==== Sys2Proof/Machine/Step.lean ====
section
/-! DEFINITION. One `step` (R201 of 45_host_operations.md), and a word placed where it fetches. -/

namespace Sys2Proof.Machine

/-- `step` (R201): the course of `stepBy`, executing by `exec`. Its Boolean result is `stepRender` in Machine/HostOps.lean;
the step with RND's byte as an input is `stepWithDraw` there. -/
def step (s : State) : Host.Outcome State Fault Refusal := stepBy exec s

/-- `s` with the instruction word `w` where `step` fetches next: its two bytes at `pc` and `pc + 1`. Where `step` would not
fetch at all, `run` becomes Running and an out-of-range `pc` becomes 0x200; in a Running state whose `pc` is in range only
the two bytes of memory change. It stands for a program brought in by `init`. Log entries 6 and 11. -/
def State.withFetchWord (s : State) (nbits w : Nat) : State :=
  let ready := { s with run := .running, pc := if s.fetchInRange then s.pc else BitVec.ofNat 16 Config.progBase }
  { ready with
    mem := Memory.writeAll ready.mem
      [(ready.fetchAddr, firstByte (tableWord nbits w)), (ready.fetchAddr + 1#12, secondByte (tableWord nbits w))] }

end Sys2Proof.Machine
end

