-- ==== Sys2Proof/Machine/HostOps.lean ====
section
/-! DEFINITION. What the host does to the machine and sees of it: `init` (70_reset_and_hazards.md), `tickTimers`, `keyDown`,
`keyUp`, the `render` result of `step`, the outputs, schedules and their observation, and the labelled transition system
over the state of R20 (45_host_operations.md). -/

namespace Sys2Proof.Machine

open Host (Outcome)

/-! ## init (R260 to R262) -/

/-- An image of at most 3584 bytes (R260, R262). -/
def imageAccepted (image : List Byte) : Bool := decide (image.length ≤ Config.progMax)

/-- The cells of an image: its bytes in order from 0x200 (R260). -/
def imageCells (image : List Byte) : List (Addr × Byte) :=
  (List.range image.length).map (fun k => (BitVec.ofNat 12 (Config.progBase + k), image.getD k 0x00#8))

/-- The state `init` gives with an accepted image (R260): every piece of state at its reset value and the image in memory.
An oversized image gives none (R261, R262). -/
def State.initial (image : List Byte) : Option State :=
  if imageAccepted image then some { State.reset with mem := Memory.writeAll [] (imageCells image) } else none

/-- `init(image)` on a machine in any state (R260, R262): a full reset, or no change at all when the image is refused.
`imageAccepted` is the report to the host. `draws` is the model's own and is kept, so that no draw is used twice. -/
def State.init (s : State) (image : List Byte) : State :=
  match State.initial image with
  | some t => { t with draws := s.draws }
  | none => s

/-! ## Timers and keys (R202 to R204) -/

/-- One timer's part of a tick: down by 1, never below 0. -/
def tickDown (t : Byte) : Byte := if t = 0x00#8 then t else t - 1#8

/-- `tickTimers()` (R202), the same in every run state. -/
def State.tickTimers (s : State) : State := { s with dt := tickDown s.dt, st := tickDown s.st }

/-- `keyDown(k)` (R203). -/
def State.keyDown (s : State) (k : KeyIdx) : State :=
  match s.run with
  | .awaitingKey => { (s.setKey k true).writeReg s.kx (k.setWidth 8) with run := .running }
  | .running => s.setKey k true
  | .faulted => s.setKey k true

/-- `keyUp(k)` (R204): "clears the flag only". -/
def State.keyUp (s : State) (k : KeyIdx) : State := s.setKey k false

/-! ## The result of step and the outputs (R201, R205, R206) -/

/-- What an executed instruction's rule leaves in `render`: true for DRW alone (R181, R201). -/
def execRender (i : Instr) : Bool :=
  match i with
  | .drwVxVyN _ _ _ => true
  | .sys _ => false
  | .cls => false
  | .ret => false
  | .jp _ => false
  | .call _ => false
  | .seVxNN _ _ => false
  | .sneVxNN _ _ => false
  | .seVxVy _ _ => false
  | .ldVxNN _ _ => false
  | .addVxNN _ _ => false
  | .ldVxVy _ _ => false
  | .orVxVy _ _ => false
  | .andVxVy _ _ => false
  | .xorVxVy _ _ => false
  | .addVxVy _ _ => false
  | .subVxVy _ _ => false
  | .shrVx _ _ => false
  | .subnVxVy _ _ => false
  | .shlVx _ _ => false
  | .sneVxVy _ _ => false
  | .ldINNN _ => false
  | .jpV0NNN _ => false
  | .rndVxNN _ _ => false
  | .skpVx _ => false
  | .sknpVx _ => false
  | .ldVxDT _ => false
  | .ldVxK _ => false
  | .ldDTVx _ => false
  | .ldSTVx _ => false
  | .addIVx _ => false
  | .ldFVx _ => false
  | .ldBVx _ => false
  | .ldMemVx _ => false
  | .ldVxMem _ => false

/-- The Boolean a `step` in this state returns (R201): an output of the operation, not state (R39, R206). -/
def State.stepRender (s : State) : Bool :=
  match s.run with
  | .awaitingKey => false
  | .faulted => false
  | .running =>
    if s.fetchInRange then
      match decodeWord s.fetchWord with
      | .ok i => execRender i
      | .error _ => false
    else false

/-- The encoding of `RUN` (R36). -/
def RunState.bits (r : RunState) : BitVec 2 :=
  match r with
  | .running => 0#2
  | .awaitingKey => 1#2
  | .faulted => 2#2

/-- The encoding of `FAULT.code` (R221). -/
def FaultCode.bits (c : FaultCode) : BitVec 3 :=
  match c with
  | .noFault => 0#3
  | .stackOverflow => 1#3
  | .stackUnderflow => 2#3
  | .fetchOutOfRange => 3#3
  | .protectedWrite => 4#3

/-- What the host can observe between operations: the eight outputs of R205. -/
structure Outputs where
  fb : Framebuffer
  soundTimer : Byte
  soundActive : Bool
  /-- The result of the last `step`; `none` before the first. -/
  render : Option Bool
  runState : BitVec 2
  faultCode : BitVec 3
  faultPc : Word
  faultInfo : Word
  deriving DecidableEq, Repr

/-- The outputs in a state (R205). `render` is no part of the state (R206), so it is an argument: the result of the last
`step`, which `renderAfter` carries along a run. -/
def State.outputs (s : State) (render : Option Bool) : Outputs where
  fb := s.fb
  soundTimer := s.st
  soundActive := s.st != 0x00#8
  render := render
  runState := s.run.bits
  faultCode := s.fault.code.bits
  faultPc := s.fault.pc
  faultInfo := s.fault.info

/-! ## Schedules (R200, R207) -/

/-- The labels of the transition system: the four operations, and `init` (R200, R260). -/
inductive HostOp where
  | step
  | tickTimers
  | keyDown (k : KeyIdx)
  | keyUp (k : KeyIdx)
  | init (image : List Byte)
  deriving DecidableEq, Repr

/-- One host operation, an atomic transition (R200). -/
def hostOp (op : HostOp) (s : State) : Outcome State Fault Refusal :=
  match op with
  | .step => Sys2Proof.Machine.step s
  | .tickTimers => .next s.tickTimers
  | .keyDown k => .next (s.keyDown k)
  | .keyUp k => .next (s.keyUp k)
  | .init image => .next (s.init image)

/-- A finite schedule: any list of operations is legal (R207). -/
def runSchedule (ops : List HostOp) (s : State) : Outcome State Fault Refusal :=
  match ops with
  | [] => .next s
  | op :: rest =>
    match hostOp op s with
    | .next t => runSchedule rest t
    | .fault r => .fault r
    | .refused r => .refused r

/-- An infinite schedule: any sequence of operations, one for each natural number, is legal (R207). -/
abbrev Schedule := Nat → HostOp

/-- A run over an infinite schedule: the state after its first `n` operations. -/
def runFor (sched : Schedule) (s : State) (n : Nat) : Outcome State Fault Refusal :=
  match n with
  | 0 => .next s
  | m + 1 =>
    match runFor sched s m with
    | .next t => hostOp (sched m) t
    | .fault r => .fault r
    | .refused r => .refused r

/-! ## The observation of a run (R205, R206) -/

/-- The `render` output after an operation carried out in state `s`: a `step` gives its own result, whatever an earlier
one gave, and no other operation has one (R206). -/
def renderAfter (op : HostOp) (s : State) (last : Option Bool) : Option Bool :=
  match op with
  | .step => some s.stepRender
  | .tickTimers => last
  | .keyDown _ => last
  | .keyUp _ => last
  | .init _ => last

/-- The observation of a run: the outputs before its first operation and after each one (R205). -/
def observe (ops : List HostOp) (s : State) (last : Option Bool) : List Outputs :=
  match ops with
  | [] => [s.outputs last]
  | op :: rest =>
    s.outputs last ::
      match hostOp op s with
      | .next t => observe rest t (renderAfter op s last)
      | .fault _ => []
      | .refused _ => []

/-- The `render` output after the first `n` operations of an infinite schedule. -/
def renderFor (sched : Schedule) (s : State) (last : Option Bool) (n : Nat) : Option Bool :=
  match n with
  | 0 => last
  | m + 1 =>
    match runFor sched s m with
    | .next t => renderAfter (sched m) t (renderFor sched s last m)
    | .fault _ => renderFor sched s last m
    | .refused _ => renderFor sched s last m

/-- The observation of a run over an infinite schedule: the outputs after its first `n` operations, for every `n`. -/
def observeFor (sched : Schedule) (s : State) (last : Option Bool) (n : Nat) : Option Outputs :=
  match runFor sched s n with
  | .next t => some (t.outputs (renderFor sched s last n))
  | .fault _ => none
  | .refused _ => none

/-! ## The labelled transition system of R200, over exactly the state of R20 -/

/-- `exec` with the byte RND draws as an input (R151: "a free input of the step"). -/
def execWithDraw (r : Byte) (i : Instr) (s : State) : Outcome State Fault Refusal :=
  match i with
  | .rndVxNN x nn => .next (s.rndWith x nn r)
  | .sys _ | .cls | .ret | .jp _ | .call _ | .seVxNN _ _ | .sneVxNN _ _ | .seVxVy _ _ | .sneVxVy _ _ => exec i s
  | .ldVxNN _ _ | .addVxNN _ _ | .ldVxVy _ _ | .orVxVy _ _ | .andVxVy _ _ | .xorVxVy _ _ => exec i s
  | .addVxVy _ _ | .subVxVy _ _ | .shrVx _ _ | .subnVxVy _ _ | .shlVx _ _ => exec i s
  | .ldINNN _ | .jpV0NNN _ | .drwVxVyN _ _ _ | .skpVx _ | .sknpVx _ | .ldVxDT _ | .ldVxK _ | .ldDTVx _ => exec i s
  | .ldSTVx _ | .addIVx _ | .ldFVx _ | .ldBVx _ | .ldMemVx _ | .ldVxMem _ => exec i s

/-- `step` with the byte a drawing RND takes as an input. -/
def stepWithDraw (r : Byte) (s : State) : Outcome State Fault Refusal := stepBy (execWithDraw r) s

/-- The labels of R200: the four operations, with the key number, and with the random draw on a `step` (which takes it
only where it executes RND). -/
inductive Label where
  | step (r : Byte)
  | tickTimers
  | keyDown (k : KeyIdx)
  | keyUp (k : KeyIdx)
  deriving DecidableEq, Repr

/-- The label of a host operation, when its step takes the byte `r`. `init` is no label of R200: it gives the initial
states. -/
def HostOp.label (op : HostOp) (r : Byte) : Option Label :=
  match op with
  | .step => some (.step r)
  | .tickTimers => some .tickTimers
  | .keyDown k => some (.keyDown k)
  | .keyUp k => some (.keyUp k)
  | .init _ => none

/-- A core with a random source that has given nothing yet. -/
def CoreState.withSource (c : CoreState) : State := { toCoreState := c, draws := 0 }

/-- The core's part of an outcome. -/
def coreOutcome (o : Outcome State Fault Refusal) : Outcome CoreState Fault Refusal :=
  match o with
  | .next t => .next t.toCoreState
  | .fault r => .fault r
  | .refused r => .refused r

/-- The transition of a label from a state of R20 to a state of R20. The draw is in the label, so the source of
`withSource` is never asked. -/
def CoreState.transition (c : CoreState) (l : Label) : Outcome CoreState Fault Refusal :=
  match l with
  | .step r => coreOutcome (stepWithDraw r c.withSource)
  | .tickTimers => .next c.withSource.tickTimers.toCoreState
  | .keyDown k => .next (c.withSource.keyDown k).toCoreState
  | .keyUp k => .next (c.withSource.keyUp k).toCoreState

/-- The first `init`, on a machine that has no state yet (R261): the core's state, or none when the image is refused and the
machine stays uninitialised (R262). -/
def CoreState.initial (image : List Byte) : Option CoreState := (State.initial image).map (·.toCoreState)

/-- The initial states of the labelled transition system (R261): "exactly the results of `init` on images of at most 3584
bytes". -/
def CoreState.IsInitial (c : CoreState) : Prop := ∃ image, CoreState.initial image = some c

end Sys2Proof.Machine
end

