-- ==== Sys2Proof/Safety.lean ====
section
/-! DEFINITION. The terms claims are stated in: the invariant of every reachable state (R41 of 10_state.md), the parts of the
state a change may touch, and the finished convention (R270 of 70_reset_and_hazards.md). -/

namespace Sys2Proof.Machine

/-! ## The invariant -/

/-- R41.2: every byte of 0x000 to 0x1FF equals its reset value. -/
def FontIntact (s : State) : Prop := ∀ a : Addr, a.toNat ≤ 0x1FF → s.readByte a = State.reset.readByte a

/-- R41.3: Faulted exactly when a code is latched; with no code the detail words are 0 (R221, row 0). -/
def LatchAgrees (s : State) : Prop :=
  (s.run = .faulted ↔ s.fault.code ≠ .noFault) ∧
  (s.fault.code = .noFault → s.fault.pc = 0x0000#16 ∧ s.fault.info = 0x0000#16)

/-- R122: a live stack entry is one that CALL pushed, so it lies in 0x0202 to 0x1000. -/
def LiveReturnsInRange (s : State) : Prop :=
  ∀ (k : Nat) (h : k < 16), k < s.sp.val → 0x0202 ≤ s.stack[k].toNat ∧ s.stack[k].toNat ≤ 0x1000

/-- R24: the largest value any instruction writes to `pc` is 0x10FE, so `pc + 4` never wraps. -/
def PcBounded (s : State) : Prop := s.pc.toNat ≤ 0x10FE

/-- The invariant of the machine. (R41.1 and R41.6 hold by the types of `sp`, `fb` and `key`; R41.4 is the range check of
`step`; R41.5 is about changes, not states.) -/
structure Inv (s : State) : Prop where
  canonicalMemory : Memory.wf s.mem = true
  fontIntact : FontIntact s
  latchAgrees : LatchAgrees s
  liveReturnsInRange : LiveReturnsInRange s
  pcBounded : PcBounded s

/-! ## Frames -/

/-- The parts of the state a change may touch. -/
inductive Part where
  | regs | I | pc | sp | stack | dt | st | mem | fb | key | run | kx | fault | draws
  deriving DecidableEq, Repr

/-- A part is the same in two states. Memory is compared through the read of one byte, at every address. -/
def Part.same (p : Part) (s t : State) : Prop :=
  match p with
  | .regs => ∀ r, t.readReg r = s.readReg r
  | .I => t.I = s.I
  | .pc => t.pc = s.pc
  | .sp => t.sp = s.sp
  | .stack => t.stack = s.stack
  | .dt => t.dt = s.dt
  | .st => t.st = s.st
  | .mem => ∀ a, t.readByte a = s.readByte a
  | .fb => t.fb = s.fb
  | .key => t.key = s.key
  | .run => t.run = s.run
  | .kx => t.kx = s.kx
  | .fault => t.fault = s.fault
  | .draws => t.draws = s.draws

/-- From `s` to `t` every part outside the list is the same. -/
def ChangesOnly (parts : List Part) (s t : State) : Prop := ∀ p, p ∉ parts → p.same s t

/-! ## Words with no instruction, and finished programs -/

/-- The unmatched words of R96 (30_encoding.md), group by group; the SYS row is among them (R95, R121). -/
def Unmatched (w : Word) : Prop :=
  (w.toNat / 4096 = 0x0 ∧ w.toNat % 4096 ≠ 0x0E0 ∧ w.toNat % 4096 ≠ 0x0EE) ∨
  (w.toNat / 4096 = 0x5 ∧ w.toNat % 16 ≠ 0) ∨
  (w.toNat / 4096 = 0x8 ∧ w.toNat % 16 ∈ [0x8, 0x9, 0xA, 0xB, 0xC, 0xD, 0xF]) ∨
  (w.toNat / 4096 = 0x9 ∧ w.toNat % 16 ≠ 0) ∨
  (w.toNat / 4096 = 0xE ∧ w.toNat % 256 ∉ [0x9E, 0xA1]) ∨
  (w.toNat / 4096 = 0xF ∧ w.toNat % 256 ∉ [0x07, 0x0A, 0x15, 0x18, 0x1E, 0x29, 0x33, 0x55, 0x65])

/-- R70: `step` in the Running state fetches only from 0x200 to 0xFFE. -/
def PcFetchable (s : State) : Prop := 0x200 ≤ s.pc.toNat ∧ s.pc.toNat ≤ 0xFFE

/-- The word a fetch at `pc` reads: the byte at `pc` high, the byte at `pc + 1` low (R68, R90). -/
def wordAtPc (s : State) : Word :=
  s.readByte (BitVec.ofNat 12 s.pc.toNat) ++ s.readByte (BitVec.ofNat 12 (s.pc.toNat + 1))

/-- The instruction `step` would execute: Running, `pc` in range, and the word at `pc` decodes to `i` (R201). -/
def AboutToExecute (s : State) (i : Instr) : Prop :=
  s.run = .running ∧ PcFetchable s ∧ decodeWord (wordAtPc s) = .ok i

/-- R270: a program is finished when the core is Running, no fault is latched and the word at `pc` is `JP pc`. -/
def Finished (s : State) : Prop :=
  s.run = .running ∧ s.fault.code = .noFault ∧ PcFetchable s ∧ (wordAtPc s).toNat = 0x1000 + s.pc.toNat

/-! ## Fairness of a schedule (R207: "ticks keep coming; a key is eventually pressed") -/

/-- After every operation of the schedule there is a later tick. -/
def TicksKeepComing (sched : Schedule) : Prop := ∀ n, ∃ m, n ≤ m ∧ sched m = .tickTimers

/-- Some operation of the schedule presses a key. -/
def KeyEventuallyPressed (sched : Schedule) : Prop := ∃ n k, sched n = .keyDown k

/-- The schedule never resets the machine. -/
def NeverResets (sched : Schedule) : Prop := ∀ n image, sched n ≠ .init image

/-! ## What each instruction may write (R20, R22, R25) -/

/-- The general registers an instruction may write: its `X` register where the rule writes one, `x[15]` for the six flag
writers of R22, the block of LD Vx,[I]. LD Vx,K writes none: its register is written by the later `keyDown` (R192). -/
def MayWriteReg (i : Instr) (r : RegIdx) : Prop :=
  match i with
  | .ldVxNN x _ | .addVxNN x _ | .rndVxNN x _ => r = x
  | .ldVxVy x _ | .orVxVy x _ | .andVxVy x _ | .xorVxVy x _ => r = x
  | .addVxVy x _ | .subVxVy x _ | .shrVx x _ | .subnVxVy x _ | .shlVx x _ => r = x ∨ r = 0xF#4
  | .drwVxVyN _ _ _ => r = 0xF#4
  | .ldVxDT x => r = x
  | .ldVxMem x => r.toNat ≤ x.toNat
  | .sys _ | .cls | .ret | .jp _ | .call _ | .jpV0NNN _ => False
  | .seVxNN _ _ | .sneVxNN _ _ | .seVxVy _ _ | .sneVxVy _ _ | .skpVx _ | .sknpVx _ => False
  | .ldINNN _ | .addIVx _ | .ldFVx _ | .ldBVx _ | .ldMemVx _ | .ldVxK _ | .ldDTVx _ | .ldSTVx _ => False

/-- The parts of the state an instruction may write when it raises no fault (the "written by" column of R20). -/
def partsWritten (i : Instr) : List Part :=
  match i with
  | .sys _ | .jp _ | .jpV0NNN _ => [.pc]
  | .seVxNN _ _ | .sneVxNN _ _ | .seVxVy _ _ | .sneVxVy _ _ | .skpVx _ | .sknpVx _ => [.pc]
  | .call _ => [.pc, .sp, .stack]
  | .ret => [.pc, .sp]
  | .cls => [.pc, .fb]
  | .drwVxVyN _ _ _ => [.pc, .fb, .regs]
  | .rndVxNN _ _ => [.pc, .regs, .draws]
  | .ldVxNN _ _ | .addVxNN _ _ | .ldVxVy _ _ | .orVxVy _ _ | .andVxVy _ _ | .xorVxVy _ _ => [.pc, .regs]
  | .addVxVy _ _ | .subVxVy _ _ | .shrVx _ _ | .subnVxVy _ _ | .shlVx _ _ => [.pc, .regs]
  | .ldVxDT _ | .ldVxMem _ => [.pc, .regs]
  | .ldINNN _ | .addIVx _ | .ldFVx _ => [.pc, .I]
  | .ldBVx _ | .ldMemVx _ => [.pc, .mem]
  | .ldVxK _ => [.pc, .run, .kx]
  | .ldDTVx _ => [.pc, .dt]
  | .ldSTVx _ => [.pc, .st]

/-! ## Faults and sprites, as the rules put them -/

/-- The table of R221: `step` in the Running state faults with this code and detail word. -/
def FaultCondition (s : State) (code : FaultCode) (info : Word) : Prop :=
  (code = .fetchOutOfRange ∧ ¬ PcFetchable s ∧ info = s.pc) ∨
  (code = .stackOverflow ∧ s.sp.val = 16 ∧ ∃ nnn, AboutToExecute s (.call nnn) ∧ info.toNat = nnn.toNat) ∨
  (code = .stackUnderflow ∧ s.sp.val = 0 ∧ AboutToExecute s .ret ∧ info = 0x0000#16) ∨
  (code = .protectedWrite ∧ ∃ x k,
    ((AboutToExecute s (.ldBVx x) ∧ k ≤ 2) ∨ (AboutToExecute s (.ldMemVx x) ∧ k ≤ x.toNat)) ∧
    (s.ea k).toNat ≤ 0x1FF ∧ (∀ j, j < k → 0x1FF < (s.ea j).toNat) ∧ info.toNat = (s.ea k).toNat)

/-- The sprite of R181 has a 1 bit that falls on this pixel (R182: bit 7 leftmost, both axes wrapping per pixel). -/
def SpriteCovers (s : State) (vx vy : Byte) (n : BitVec 4) (row : Fin 32) (col : Fin 64) : Prop :=
  ∃ r j, r < n.toNat ∧ j < 8 ∧ (s.readByte (s.ea r)).getLsbD (7 - j) = true ∧
    row.val = (vy.toNat + r) % 32 ∧ col.val = (vx.toNat + j) % 64

end Sys2Proof.Machine
end

