-- ==== Sys2Proof/Certificates/Slice0/Obligations.lean ====
section
/-! DEFINITION. The statements for the provers. A statement that formalises an unmarked rule of the spec says "Stated"; one
that rests on a passage the spec marks as its own ([decision: D<n>], [derived], [from general knowledge]) or on a choice of
this model says "Derived" and names it. -/

open Sys2Proof Sys2Proof.Machine

/-! ## Encoding -/

/-- Derived: R94, R95 of 30_encoding.md, whose numbers and strictness are decisions D1 and D2 (log entries 14, 15). -/
def Obligations.DecodeOfEncodeIsIdentity : Prop :=
  ∀ i : Instr, i.wellFormed = true →
    decodeWord (encode i) = .ok i ∧
    ∀ rest, decodeBytes (firstByte (encode i) :: secondByte (encode i) :: rest) = .ok (i, rest)

/-- Derived: R94, R95 with D1, D2. Each word has one meaning, and the decoder gives only well-formed instructions. -/
def Obligations.EncodeOfDecodeIsIdentity : Prop :=
  ∀ (w : Word) (i : Instr), decodeWord w = .ok i → encode i = w ∧ i.wellFormed = true

/-- Derived: R101 ("[derived: from rule R94 and rule R95]"): decoding by fields is choosing the first row of the table whose
mask and match fit, the SYS row last. -/
def Obligations.DecoderAgreesWithOpcodeTable : Prop :=
  ∀ w : Word,
    (∀ i, decodeWord w = .ok i → selectRow w = some i.row) ∧
    (∀ e, decodeWord w = .error e → e = .miss w ∧ selectRow w = none)

/-- Derived: R94 with D1, "The rows are pairwise disjoint except that SYS overlaps CLS and RET". -/
def Obligations.OpcodeRowsOverlapOnlyAtSys : Prop :=
  ∀ (w : Word) (r₁ r₂ : OpcodeRow), r₁ ∈ opcodeTable → r₂ ∈ opcodeTable → r₁.selects w = true → r₂.selects w = true →
    r₁ = r₂ ∨ (r₁.number = 1 ∧ r₂.number ∈ [2, 3]) ∨ (r₂.number = 1 ∧ r₁.number ∈ [2, 3])

/-- Derived: R96 ("[derived: from rule R94 and rule R95]"). The SYS row is part of the unmatched words (R95). -/
def Obligations.UnmatchedWordsAreThoseOfTheTable : Prop :=
  ∀ w : Word, Unmatched w ↔ decodeWord w = .error (.miss w) ∨ ∃ nnn, decodeWord w = .ok (.sys nnn)

/-- Derived: words written out from R91 and R94 (D1): the document's own example, one word of every family, and misses. -/
def Obligations.WrittenOutWordsDecode : Prop :=
  decodeBytes [0x60#8, 0x05#8] = .ok (.ldVxNN 0x0#4 0x05#8, []) ∧
  decodeBytes [0x61#8, 0x0A#8] = .ok (.ldVxNN 0x1#4 0x0A#8, []) ∧
  decodeBytes [0x80#8, 0x14#8] = .ok (.addVxVy 0x0#4 0x1#4, []) ∧
  decodeBytes [0x22#8, 0x10#8] = .ok (.call 0x210#12, []) ∧
  decodeBytes [0xF3#8, 0x33#8] = .ok (.ldBVx 0x3#4, []) ∧
  decodeBytes [0xD0#8, 0x12#8] = .ok (.drwVxVyN 0x0#4 0x1#4 0x2#4, []) ∧
  decodeBytes [0xE2#8, 0x9E#8] = .ok (.skpVx 0x2#4, []) ∧
  decodeBytes [0x01#8, 0x23#8] = .ok (.sys 0x123#12, []) ∧
  decodeBytes [0x51#8, 0x21#8] = .error (.miss 0x5121#16) ∧
  decodeBytes [0x81#8, 0x28#8] = .error (.miss 0x8128#16)

/-- Stated: R91 of 30_encoding.md. Every word has all six fields, at these bits. -/
def Obligations.DecoderFieldsAreAtTheirBits : Prop :=
  ∀ w : Word,
    (opField w).toNat = w.toNat / 4096 ∧ (nnnField w).toNat = w.toNat % 4096 ∧ (nnField w).toNat = w.toNat % 256 ∧
    (xField w).toNat = w.toNat / 256 % 16 ∧ (yField w).toNat = w.toNat / 16 % 16 ∧ (nField w).toNat = w.toNat % 16 ∧
    nnnField w = xField w ++ yField w ++ nField w ∧ nnField w = yField w ++ nField w

/-! ## The step -/

/-- Stated: R90 of 30_encoding.md. The word fetched is the byte at `pc` (high) and the byte at `pc + 1` (low), and `step` is
`exec` of the instruction it decodes to; `step` adds nothing around `exec`. -/
def Obligations.StepExecutesTheInstructionAtPc : Prop :=
  ∀ (s : State) (i : Instr), s.run = .running → PcFetchable s →
    decodeWord (s.readByte (BitVec.ofNat 12 s.pc.toNat) ++ s.readByte (BitVec.ofNat 12 (s.pc.toNat + 1))) = .ok i →
    step s = exec i s

/-- Stated: R130 of 40_control.md: a decode miss moves `pc` by 2 and does nothing else; `step` returns false. -/
def Obligations.UnmatchedWordsOnlyAdvancePc : Prop :=
  ∀ s : State, s.run = .running → PcFetchable s → Unmatched (wordAtPc s) →
    ∃ t, step s = .next t ∧ t.pc.toNat = s.pc.toNat + 2 ∧ ChangesOnly [.pc] s t ∧ s.stepRender = false

/-- Derived: R201 of 45_host_operations.md (its Faulted arm is decision D16). `render` is an output computed beside the
step (log entry 9). With R205, R206 (D16, D24): the host observes the outputs before and after an operation, and `render`
among them is the result of the last `step` (that `init` too leaves it is the model's choice, log entry 9). -/
def Obligations.RenderIsTrueExactlyForDraw : Prop :=
  (∀ s : State, s.stepRender = true ↔ ∃ x y n, AboutToExecute s (.drwVxVyN x y n)) ∧
  (∀ (op : HostOp) (s t : State) (last : Option Bool), hostOp op s = .next t →
    observe [op] s last = [s.outputs last, t.outputs (if op = .step then some s.stepRender else last)])

/-- Derived: R200, R207 of 45_host_operations.md and R222 of 60_exceptions.md (D16): any schedule is legal and every
operation of it is carried out; the model never stops (log entry 3). A finite schedule has one observation (R205, D24) more
than it has operations; an infinite one reaches, after its first `n` operations, the state and the outputs of that list. -/
def Obligations.EveryScheduleRunsToItsEnd : Prop :=
  (∀ (ops : List HostOp) (s : State) (last : Option Bool),
    (∃ t, runSchedule ops s = .next t) ∧ (observe ops s last).length = ops.length + 1) ∧
  (∀ (sched : Schedule) (s : State) (last : Option Bool) (n : Nat),
    (∃ t, runFor sched s n = .next t) ∧ runFor sched s n = runSchedule ((List.range n).map sched) s ∧
    observeFor sched s last n = (observe ((List.range n).map sched) s last).getLast?)

/-! ## Control transfer -/

/-- Stated: R123 of 40_control.md. -/
def Obligations.JumpSetsPcToItsTarget : Prop :=
  ∀ (s : State) (nnn : Addr),
    decodeWord (0x1#4 ++ nnn) = .ok (.jp nnn) ∧
    ∃ t, exec (.jp nnn) s = .next t ∧ t.pc.toNat = nnn.toNat ∧ ChangesOnly [.pc] s t ∧
      (s.pc.toNat = nnn.toNat → t = s) ∧
      (s.run = .running → nnn.toNat < 0x200 ∨ nnn.toNat = 0xFFF →
        ∃ u, step t = .next u ∧ u.run = .faulted ∧ u.fault.code = .fetchOutOfRange)

/-- Derived: R124 of 40_control.md; the capacity and the fault are decisions D15 and D16. -/
def Obligations.CallPushesTheReturnAddress : Prop :=
  ∀ (s : State) (nnn : Addr),
    (s.sp.val < 16 → ∃ t, exec (.call nnn) s = .next t ∧ t.sp.val = s.sp.val + 1 ∧ t.pc.toNat = nnn.toNat ∧
      (∀ (k : Nat) (h : k < 16), t.stack[k] = if k = s.sp.val then s.pc + 2#16 else s.stack[k]) ∧
      ChangesOnly [.pc, .sp, .stack] s t) ∧
    (s.sp.val = 16 → ∃ t, exec (.call nnn) s = .next t ∧ t.run = .faulted ∧
      t.fault = ⟨.stackOverflow, s.pc, zextAddr nnn⟩ ∧ ChangesOnly [.run, .fault] s t)

/-- Derived: R122 of 40_control.md; the fault is decisions D15 and D16. -/
def Obligations.ReturnPopsTheReturnAddress : Prop :=
  ∀ s : State,
    (∀ _ : 0 < s.sp.val, ∃ t, exec .ret s = .next t ∧ t.pc = s.stack[s.sp.val - 1] ∧ t.sp.val = s.sp.val - 1 ∧
      ChangesOnly [.pc, .sp] s t) ∧
    (s.sp.val = 0 → ∃ t, exec .ret s = .next t ∧ t.run = .faulted ∧ t.fault = ⟨.stackUnderflow, s.pc, 0x0000#16⟩ ∧
      ChangesOnly [.run, .fault] s t)

/-- Derived: the property quoted in R124 of 40_control.md, for the capacity of D15. -/
def Obligations.CallThenReturnComesBack : Prop :=
  ∀ (s : State) (nnn : Addr), s.sp.val < 16 →
    ∃ t u, exec (.call nnn) s = .next t ∧ exec .ret t = .next u ∧ u.pc = s.pc + 2#16 ∧ u.sp = s.sp ∧
      (∀ (k : Nat) (h : k < 16), k ≠ s.sp.val → u.stack[k] = s.stack[k]) ∧ ChangesOnly [.pc, .stack] s u

/-- Stated: R125, R126, R127, R128 of 40_control.md. -/
def Obligations.SkipsAdvanceByFourOrTwo : Prop :=
  ∀ (s : State) (x y : RegIdx) (nn : Byte),
    (∀ n : BitVec 4, n ≠ 0x0#4 →
      decodeWord (0x5#4 ++ x ++ y ++ n) = .error (.miss (0x5#4 ++ x ++ y ++ n)) ∧
      decodeWord (0x9#4 ++ x ++ y ++ n) = .error (.miss (0x9#4 ++ x ++ y ++ n))) ∧
    ∀ p ∈ ([
      (0x3#4 ++ x ++ nn, .seVxNN x nn, decide (s.readReg x = nn)),
      (0x4#4 ++ x ++ nn, .sneVxNN x nn, decide (s.readReg x ≠ nn)),
      (0x5#4 ++ x ++ y ++ 0x0#4, .seVxVy x y, decide (s.readReg x = s.readReg y)),
      (0x9#4 ++ x ++ y ++ 0x0#4, .sneVxVy x y, decide (s.readReg x ≠ s.readReg y))] : List (Word × Instr × Bool)),
    decodeWord p.1 = .ok p.2.1 ∧
    ∃ t, exec p.2.1 s = .next t ∧ t.pc = (if p.2.2 then s.pc + 4#16 else s.pc + 2#16) ∧ ChangesOnly [.pc] s t ∧
      (s.run = .running → s.pc = 0x0FFE#16 → p.2.2 = true →
        t.pc = 0x1002#16 ∧ ∃ u, step t = .next u ∧ u.run = .faulted ∧ u.fault.code = .fetchOutOfRange)

/-- Derived: R129 of 40_control.md; the unreduced sum is decision D4, register 0 is D29. -/
def Obligations.JumpWithOffsetAddsRegisterZero : Prop :=
  ∀ (s : State) (nnn : Addr), ∃ t, exec (.jpV0NNN nnn) s = .next t ∧
    t.pc.toNat = nnn.toNat + (s.readReg 0x0#4).toNat ∧ ChangesOnly [.pc] s t ∧
    (s.run = .running → 0xFFE < nnn.toNat + (s.readReg 0x0#4).toNat →
      ∃ u, step t = .next u ∧ u.run = .faulted ∧ u.fault.code = .fetchOutOfRange)

/-- Derived: R121 of 40_control.md (decision D3). -/
def Obligations.SysOnlyAdvancesPc : Prop :=
  ∀ (s : State) (nnn : Addr), ∃ t, exec (.sys nnn) s = .next t ∧ t.pc = s.pc + 2#16 ∧ ChangesOnly [.pc] s t

/-- Stated: R25 of 10_state.md, the complete classification, for every instruction and the decode miss. -/
def Obligations.PcAdvancesByClass : Prop :=
  (∀ (i : Instr) (s t : State), s.run = .running → exec i s = .next t →
    (t.run = .faulted → t.pc = s.pc) ∧
    (t.run ≠ .faulted →
      match i with
      | .jp nnn => t.pc = zextAddr nnn
      | .call nnn => t.pc = zextAddr nnn
      | .ret => ∃ _ : 0 < s.sp.val, t.pc = s.stack[s.sp.val - 1]
      | .jpV0NNN nnn => t.pc = zextAddr nnn + zextByte (s.readReg 0x0#4)
      | .seVxNN x nn => t.pc = if s.readReg x = nn then s.pc + 4#16 else s.pc + 2#16
      | .sneVxNN x nn => t.pc = if s.readReg x ≠ nn then s.pc + 4#16 else s.pc + 2#16
      | .seVxVy x y => t.pc = if s.readReg x = s.readReg y then s.pc + 4#16 else s.pc + 2#16
      | .sneVxVy x y => t.pc = if s.readReg x ≠ s.readReg y then s.pc + 4#16 else s.pc + 2#16
      | .skpVx x => t.pc = if s.keyPressed (s.readReg x) then s.pc + 4#16 else s.pc + 2#16
      | .sknpVx x => t.pc = if s.keyPressed (s.readReg x) then s.pc + 2#16 else s.pc + 4#16
      | _ => t.pc = s.pc + 2#16)) ∧
  (∀ s t : State, s.run = .running → PcFetchable s → Unmatched (wordAtPc s) → step s = .next t → t.pc = s.pc + 2#16)

/-- Derived: R190, R191 of 44_keypad_timers.md; an index above 15 counts as not pressed by decision D17. -/
def Obligations.KeySkipsTestTheNamedKey : Prop :=
  ∀ (s : State) (x : RegIdx) (pressed : Bool),
    (pressed = true ↔ (s.readReg x).toNat ≤ 15 ∧ s.readKey ((s.readReg x).setWidth 4) = true) →
    (∃ t, exec (.skpVx x) s = .next t ∧ t.pc = (if pressed then s.pc + 4#16 else s.pc + 2#16) ∧ ChangesOnly [.pc] s t) ∧
    (∃ t, exec (.sknpVx x) s = .next t ∧ t.pc = (if pressed then s.pc + 2#16 else s.pc + 4#16) ∧ ChangesOnly [.pc] s t)

/-! ## Registers and arithmetic -/

/-- Stated: R140 of 41_alu.md. -/
def Obligations.LoadImmediateWritesItsRegister : Prop :=
  ∀ (s : State) (x : RegIdx) (nn : Byte),
    decodeWord (0x6#4 ++ x ++ nn) = .ok (.ldVxNN x nn) ∧
    ∃ t, exec (.ldVxNN x nn) s = .next t ∧ (∀ r, t.readReg r = if r = x then nn else s.readReg r) ∧
      t.pc = s.pc + 2#16 ∧ ChangesOnly [.regs, .pc] s t

/-- Derived: R141 to R145 of 41_alu.md, from general knowledge (D1); the untouched flag is decision D13. -/
def Obligations.AddImmediateCopyAndLogicWriteNoFlag : Prop :=
  ∀ (s : State) (x y : RegIdx) (nn : Byte), ∀ p ∈ ([
      (.addVxNN x nn, ((s.readReg x).toNat + nn.toNat) % 256),
      (.ldVxVy x y, (s.readReg y).toNat),
      (.orVxVy x y, (s.readReg x).toNat ||| (s.readReg y).toNat),
      (.andVxVy x y, (s.readReg x).toNat &&& (s.readReg y).toNat),
      (.xorVxVy x y, (s.readReg x).toNat ^^^ (s.readReg y).toNat)] : List (Instr × Nat)),
    ∃ t, exec p.1 s = .next t ∧ (∀ r, (t.readReg r).toNat = if r = x then p.2 else (s.readReg r).toNat) ∧
      t.pc = s.pc + 2#16 ∧ ChangesOnly [.regs, .pc] s t

/-- Derived: R146, R153 of 41_alu.md; the flag written last is decision D14. -/
def Obligations.AddWritesSumThenCarry : Prop :=
  ∀ (s : State) (x y : RegIdx), ∃ t, exec (.addVxVy x y) s = .next t ∧
    (∀ r, (t.readReg r).toNat =
      if r = 0xF#4 then (if 255 < (s.readReg x).toNat + (s.readReg y).toNat then 1 else 0)
      else if r = x then ((s.readReg x).toNat + (s.readReg y).toNat) % 256
      else (s.readReg r).toNat) ∧
    t.pc = s.pc + 2#16 ∧ ChangesOnly [.regs, .pc] s t

/-- Derived: R147, R149, R153 of 41_alu.md; the flag written last is decision D14. -/
def Obligations.SubtractsWriteDifferenceThenNoBorrow : Prop :=
  ∀ (s : State) (x y : RegIdx), ∀ p ∈ ([
      (.subVxVy x y, (s.readReg x).toNat, (s.readReg y).toNat),
      (.subnVxVy x y, (s.readReg y).toNat, (s.readReg x).toNat)] : List (Instr × Nat × Nat)),
    ∃ t, exec p.1 s = .next t ∧
      (∀ r, (t.readReg r).toNat =
        if r = 0xF#4 then (if p.2.2 ≤ p.2.1 then 1 else 0)
        else if r = x then (if p.2.2 ≤ p.2.1 then p.2.1 - p.2.2 else p.2.1 + 256 - p.2.2)
        else (s.readReg r).toNat) ∧
      t.pc = s.pc + 2#16 ∧ ChangesOnly [.regs, .pc] s t

/-- Derived: R148, R150, R153 of 41_alu.md; the flag written last is D14, the ignored `Y` is D29. -/
def Obligations.ShiftsWriteResultThenLostBit : Prop :=
  ∀ (s : State) (x y : RegIdx), ∀ p ∈ ([
      (.shrVx x y, (s.readReg x).toNat / 2, (s.readReg x).toNat % 2),
      (.shlVx x y, (s.readReg x).toNat * 2 % 256, (s.readReg x).toNat / 128)] : List (Instr × Nat × Nat)),
    ∃ t, exec p.1 s = .next t ∧
      (∀ r, (t.readReg r).toNat =
        if r = 0xF#4 then p.2.2 else if r = x then p.2.1 else (s.readReg r).toNat) ∧
      t.pc = s.pc + 2#16 ∧ ChangesOnly [.regs, .pc] s t

/-- Derived: R152 of 41_alu.md ("[derived: from rules R141 to R150]"): a subtraction is the addition of the complement and 1,
and the no-borrow flag is the carry out of that addition. -/
def Obligations.NoBorrowIsCarryOfComplementAddition : Prop :=
  ∀ (s : State) (x y : RegIdx), ∀ p ∈ ([
      (.subVxVy x y, (s.readReg x).toNat + (~~~(s.readReg y)).toNat + 1),
      (.subnVxVy x y, (s.readReg y).toNat + (~~~(s.readReg x)).toNat + 1)] : List (Instr × Nat)),
    ∃ t, exec p.1 s = .next t ∧ (t.readReg 0xF#4).toNat = p.2 / 256 ∧ (x ≠ 0xF#4 → (t.readReg x).toNat = p.2 % 256)

/-- Derived: R151 of 41_alu.md; the draw is decision D18 and its form is the model's (log entries 1, 2): the byte is the free
value `Config.randomByte s.draws`, of which nothing is known; and with the draw as an input, the same for every byte. -/
def Obligations.RandomByteIsMasked : Prop :=
  ∀ (s : State) (x : RegIdx) (nn : Byte),
    (∃ t, exec (.rndVxNN x nn) s = .next t ∧
      (∀ r, t.readReg r = if r = x then Config.randomByte s.draws &&& nn else s.readReg r) ∧
      t.readReg x &&& ~~~nn = 0x00#8 ∧ (nn = 0x00#8 → t.readReg x = 0x00#8) ∧
      t.pc = s.pc + 2#16 ∧ t.draws = s.draws + 1 ∧ ChangesOnly [.regs, .pc, .draws] s t) ∧
    ∀ drawn : Byte, ∃ t, execWithDraw drawn (.rndVxNN x nn) s = .next t ∧
      (∀ r, t.readReg r = if r = x then drawn &&& nn else s.readReg r) ∧ t.pc = s.pc + 2#16 ∧
      ChangesOnly [.regs, .pc, .draws] s t

/-! ## Whole-machine frames -/

/-- Derived: R21, R22 of 10_state.md with D13: no instruction writes a register but its destination, and `x[15]` only in the
six flag writers. -/
def Obligations.OnlyDestinationRegistersChange : Prop :=
  ∀ (i : Instr) (s t : State) (r : RegIdx), exec i s = .next t → ¬ MayWriteReg i r → t.readReg r = s.readReg r

/-- Derived: the "written by" column of R20 of 10_state.md (D16), with R25, R222: an instruction that raises no fault changes
only its own parts of the state, and one that raises changes only the latch and the run state. -/
def Obligations.OnlyNamedPartsChange : Prop :=
  ∀ (i : Instr) (s t : State), exec i s = .next t →
    ChangesOnly (partsWritten i) s t ∨ (t.run = .faulted ∧ t.fault.pc = s.pc ∧ ChangesOnly [.run, .fault] s t)

/-- Stated: R28 of 10_state.md. -/
def Obligations.DelayTimerIsWrittenReadAndTicked : Prop :=
  (∀ (op : HostOp) (s t : State), (∀ image, op ≠ .init image) → hostOp op s = .next t →
    t.dt = s.dt ∨ (op = .tickTimers ∧ s.dt ≠ 0x00#8) ∨ (op = .step ∧ ∃ x, AboutToExecute s (.ldDTVx x))) ∧
  (∀ (s : State) (x : RegIdx), AboutToExecute s (.ldDTVx x) → ∃ t, step s = .next t ∧ t.dt = s.readReg x) ∧
  (∀ (s : State) (x : RegIdx), AboutToExecute s (.ldVxDT x) → ∃ t, step s = .next t ∧ t.readReg x = s.dt) ∧
  (∀ s : State, ∃ t, hostOp .tickTimers s = .next t ∧ t.dt.toNat = s.dt.toNat - 1 ∧ ChangesOnly [.dt, .st] s t)

/-- Stated: R29 of 10_state.md: written by LD ST,Vx, decremented by ticks, read by no instruction, shown to the host. -/
def Obligations.SoundTimerIsWrittenTickedAndReadByNoInstruction : Prop :=
  (∀ (op : HostOp) (s t : State), (∀ image, op ≠ .init image) → hostOp op s = .next t →
    t.st = s.st ∨ (op = .tickTimers ∧ s.st ≠ 0x00#8) ∨ (op = .step ∧ ∃ x, AboutToExecute s (.ldSTVx x))) ∧
  (∀ (s : State) (x : RegIdx), AboutToExecute s (.ldSTVx x) → ∃ t, step s = .next t ∧ t.st = s.readReg x) ∧
  (∀ s : State, ∃ t, hostOp .tickTimers s = .next t ∧ t.st.toNat = s.st.toNat - 1) ∧
  (∀ (i : Instr) (s : State) (v : Byte), ∃ t v', exec i s = .next t ∧ exec i { s with st := v } = .next { t with st := v' }) ∧
  (∀ (s : State) (render : Option Bool),
    (s.outputs render).soundTimer = s.st ∧ ((s.outputs render).soundActive = true ↔ s.st ≠ 0x00#8))

/-- Stated: R32 of 10_state.md: only `keyDown` and `keyUp` write the flags, the skip-if-key instructions read them, and the
key-wait transition does not. -/
def Obligations.OnlyKeyEdgesWriteTheKeyFlags : Prop :=
  (∀ (op : HostOp) (s t : State), (∀ image, op ≠ .init image) → hostOp op s = .next t →
    t.key = s.key ∨ ∃ k, op = .keyDown k ∨ op = .keyUp k) ∧
  (∀ (s : State) (x : RegIdx) (k : KeyIdx), (s.readReg x).toNat = k.toNat →
    (∃ t, exec (.skpVx x) s = .next t ∧ t.pc = if s.readKey k then s.pc + 4#16 else s.pc + 2#16) ∧
    (∃ t, exec (.sknpVx x) s = .next t ∧ t.pc = if s.readKey k then s.pc + 2#16 else s.pc + 4#16)) ∧
  (∀ (s : State) (k j : KeyIdx),
    (s.keyDown k).readKey j = (if j = k then true else s.readKey j) ∧
    (s.keyUp k).readKey j = (if j = k then false else s.readKey j)) ∧
  (∀ (s : State) (k : KeyIdx) (keys : Vector Bool 16),
    ({ s with key := keys }.keyDown k).run = (s.keyDown k).run ∧ ({ s with key := keys }.keyDown k).regs = (s.keyDown k).regs)

/-- Stated: R79 of 20_memory.md: no store changes the stack or the framebuffer and no load reads them. -/
def Obligations.StackAndFramebufferAreIsolatedFromMemory : Prop :=
  (∀ (s t : State) (x : RegIdx), ∀ i ∈ [Instr.ldBVx x, Instr.ldMemVx x], exec i s = .next t →
    t.stack = s.stack ∧ t.sp = s.sp ∧ t.fb = s.fb) ∧
  (∀ (s : State) (x : RegIdx) (stack : Vector Word 16) (sp : Fin 17) (fb : Framebuffer),
    ∃ t, exec (.ldVxMem x) s = .next t ∧
      exec (.ldVxMem x) { s with stack := stack, sp := sp, fb := fb } = .next { t with stack := stack, sp := sp, fb := fb })

/-- Stated: R34 of 10_state.md: outside AwaitingKey nothing reads `KX`; LD Vx,K writes it; a `keyDown` in the wait reads it. -/
def Obligations.WaitRegisterIsDeadOutsideTheWait : Prop :=
  (∀ (op : HostOp) (s : State) (v : RegIdx), s.run ≠ .awaitingKey →
    ∃ t v', hostOp op s = .next t ∧ hostOp op { s with kx := v } = .next { t with kx := v' }) ∧
  (∀ (s : State) (x : RegIdx), AboutToExecute s (.ldVxK x) → ∃ t, step s = .next t ∧ t.kx = x) ∧
  (∀ (s : State) (k : KeyIdx), s.run = .awaitingKey → ((s.keyDown k).readReg s.kx).toNat = k.toNat)

/-! ## Address register and memory -/

/-- Derived: R160 (general knowledge, D1), R161 (D7, D13), R162 (D9, D11) of 42_memory_index.md. -/
def Obligations.AddressRegisterInstructionsSetI : Prop :=
  ∀ (s : State) (x : RegIdx) (nnn : Addr), ∀ p ∈ ([
      (.ldINNN nnn, nnn.toNat),
      (.addIVx x, (s.I.toNat + (s.readReg x).toNat) % 65536),
      (.ldFVx x, 5 * (s.readReg x).toNat)] : List (Instr × Nat)),
    ∃ t, exec p.1 s = .next t ∧ t.I.toNat = p.2 ∧ t.pc = s.pc + 2#16 ∧ ChangesOnly [.I, .pc] s t

/-- Derived: R163 of 42_memory_index.md (D8) with the address of R67 (D7). -/
def Obligations.DigitStoreWritesThreeBytes : Prop :=
  ∀ (s : State) (x : RegIdx), (∀ k, k ≤ 2 → 0x1FF < (s.ea k).toNat) →
    ∃ t, exec (.ldBVx x) s = .next t ∧
      (t.readByte (s.ea 0)).toNat = (s.readReg x).toNat / 100 ∧
      (t.readByte (s.ea 1)).toNat = (s.readReg x).toNat / 10 % 10 ∧
      (t.readByte (s.ea 2)).toNat = (s.readReg x).toNat % 10 ∧
      (∀ a, (∀ k, k ≤ 2 → a ≠ s.ea k) → t.readByte a = s.readByte a) ∧
      t.pc = s.pc + 2#16 ∧ ChangesOnly [.mem, .pc] s t

/-- Derived: R164 of 42_memory_index.md (D8, D12) with the address of R67 (D7): `x[k]` goes to `(I + k) mod 4096`. -/
def Obligations.BlockStoreWritesTheRegisters : Prop :=
  ∀ (s : State) (x : RegIdx), (∀ k, k ≤ x.toNat → 0x1FF < (s.ea k).toNat) →
    ∃ t, exec (.ldMemVx x) s = .next t ∧
      (∀ r, r.toNat ≤ x.toNat → t.readByte (s.ea r.toNat) = s.readReg r) ∧
      (∀ a, (∀ k, k ≤ x.toNat → a ≠ s.ea k) → t.readByte a = s.readByte a) ∧
      t.pc = s.pc + 2#16 ∧ ChangesOnly [.mem, .pc] s t

/-- Derived: R66 of 20_memory.md, R163, R164 of 42_memory_index.md (D8): the lowest offending address is reported and no byte
is written. -/
def Obligations.ProtectedStoresFaultBeforeWriting : Prop :=
  ∀ (s : State) (x : RegIdx) (k : Nat), ∀ p ∈ ([(.ldBVx x, 2), (.ldMemVx x, x.toNat)] : List (Instr × Nat)),
    k ≤ p.2 → (s.ea k).toNat ≤ 0x1FF → (∀ j, j < k → 0x1FF < (s.ea j).toNat) →
    ∃ t, exec p.1 s = .next t ∧ t.run = .faulted ∧ t.fault = ⟨.protectedWrite, s.pc, zextAddr (s.ea k)⟩ ∧
      ChangesOnly [.run, .fault] s t

/-- Derived: R165 of 42_memory_index.md (D12) with the address of R67 (D7), spelled out. -/
def Obligations.BlockLoadReadsTheBytes : Prop :=
  ∀ (s : State) (x : RegIdx), ∃ t, exec (.ldVxMem x) s = .next t ∧
    (∀ r, t.readReg r =
      if r.toNat ≤ x.toNat then s.readByte (BitVec.ofNat 12 ((s.I.toNat + r.toNat) % 4096)) else s.readReg r) ∧
    t.pc = s.pc + 2#16 ∧ ChangesOnly [.regs, .pc] s t

/-- Derived: R23 of 10_state.md (D7): bits 15 to 12 of `I` influence nothing but `I` itself. -/
def Obligations.HighBitsOfIReachNothing : Prop :=
  ∀ (i : Instr) (s : State) (v : Word), v.toNat % 4096 = s.I.toNat % 4096 →
    ∃ t v', exec i s = .next t ∧ exec i { s with I := v } = .next { t with I := v' } ∧
      v'.toNat % 4096 = t.I.toNat % 4096

/-- Derived: the canonical form is this model's (log entry 7): memories that read alike at every address are equal data. -/
def Obligations.CanonicalMemoriesThatReadAlikeAreEqual : Prop :=
  ∀ m n : Memory, Memory.wf m = true → Memory.wf n = true → (∀ a : Addr, Memory.read m a = Memory.read n a) → m = n

/-- Derived: R76 of 20_memory.md ("[derived: from rule R73 and 30_encoding.md rule R90]"): bytes stored over the next
instruction are the next word fetched. -/
def Obligations.StoredBytesAreFetchedNext : Prop :=
  ∀ (s : State) (x : RegIdx), (∀ k, k ≤ x.toNat → 0x1FF < (s.ea k).toNat) → 1 ≤ x.toNat →
    s.I.toNat % 4096 = (s.pc.toNat + 2) % 4096 →
    ∃ t, exec (.ldMemVx x) s = .next t ∧ wordAtPc t = s.readReg 0x0#4 ++ s.readReg 0x1#4

/-! ## Display -/

/-- Stated: R180 of 43_display.md. -/
def Obligations.ClearScreenBlanksEveryPixel : Prop :=
  decodeWord 0x00E0#16 = .ok .cls ∧
  ∀ s : State, ∃ t, exec .cls s = .next t ∧ (∀ row col, t.fb.pixel row col = false) ∧ t.pc = s.pc + 2#16 ∧
    ChangesOnly [.fb, .pc] s t ∧ (AboutToExecute s .cls → s.stepRender = false) ∧
    ∀ x y n, ∃ u v, exec (.drwVxVyN x y n) t = .next u ∧
      exec (.drwVxVyN x y n) { s with fb := Framebuffer.blank } = .next v ∧ u.fb = v.fb

/-- Derived: R181, R182 of 43_display.md; bit order and axes are D21, `N` = 0 is D22, the wrapped address is D7. The drawing
loop inverts exactly the pixels the sprite covers, and the flag says whether one of them was lit. -/
def Obligations.DrawInvertsExactlyTheCoveredPixels : Prop :=
  ∀ (s : State) (x y : RegIdx) (n : BitVec 4), ∃ t, exec (.drwVxVyN x y n) s = .next t ∧
    (∀ row col, t.fb.pixel row col = true ↔
      (s.fb.pixel row col = true ↔ ¬ SpriteCovers s (s.readReg x) (s.readReg y) n row col)) ∧
    (∀ r, r ≠ 0xF#4 → t.readReg r = s.readReg r) ∧
    (t.readReg 0xF#4 = 0x00#8 ∨ t.readReg 0xF#4 = 0x01#8) ∧
    (t.readReg 0xF#4 = 0x01#8 ↔
      ∃ row col, SpriteCovers s (s.readReg x) (s.readReg y) n row col ∧ s.fb.pixel row col = true) ∧
    t.pc = s.pc + 2#16 ∧ ChangesOnly [.regs, .fb, .pc] s t

/-- Derived: corner case 7 of R181 of 43_display.md (D21), with its hidden premise that neither coordinate is `x[15]`. The
flag of the second draw is the one the rule's pseudocode gives; the rule's gloss on it holds where the covered pixels were
dark (log entry 25). -/
def Obligations.DrawingTwiceRestoresTheFramebuffer : Prop :=
  ∀ (s : State) (x y : RegIdx) (n : BitVec 4), x ≠ 0xF#4 → y ≠ 0xF#4 →
    ∃ t u, exec (.drwVxVyN x y n) s = .next t ∧ exec (.drwVxVyN x y n) t = .next u ∧ u.fb = s.fb ∧
      (u.readReg 0xF#4 = 0x01#8 ↔
        ∃ row col, SpriteCovers s (s.readReg x) (s.readReg y) n row col ∧ s.fb.pixel row col = false)

/-! ## Keypad and timers -/

/-- Derived: R192 of 44_keypad_timers.md; held keys are D30, the `pc` advance is D31. -/
def Obligations.KeyWaitSuspendsExecution : Prop :=
  ∀ (s : State) (x : RegIdx), ∃ t, exec (.ldVxK x) s = .next t ∧ t.run = .awaitingKey ∧ t.kx = x ∧ t.pc = s.pc + 2#16 ∧
    ChangesOnly [.run, .kx, .pc] s t ∧ step t = .next t ∧ t.stepRender = false

/-- Derived: R203 of 45_host_operations.md; the 4-bit key number is D28. With R207 (D23): a wait ends in every run, over an
infinite schedule without `init`, in which a key is eventually pressed. -/
def Obligations.KeyDownResolvesTheWait : Prop :=
  (∀ (sched : Schedule) (s : State), s.run = .awaitingKey → NeverResets sched → KeyEventuallyPressed sched →
    ∃ n t, runFor sched s n = .next t ∧ t.run = .running) ∧
  ∀ (s : State) (k : KeyIdx),
    (∀ j, (s.keyDown k).readKey j = if j = k then true else s.readKey j) ∧
    (s.run = .awaitingKey → (s.keyDown k).run = .running ∧
      (∀ r, ((s.keyDown k).readReg r).toNat = if r = s.kx then k.toNat else (s.readReg r).toNat) ∧
      ChangesOnly [.key, .regs, .run] s (s.keyDown k)) ∧
    (s.run ≠ .awaitingKey → ChangesOnly [.key] s (s.keyDown k)) ∧
    (∀ k', ChangesOnly [.key] (s.keyDown k) ((s.keyDown k).keyDown k'))

/-- Derived: R193, R194, R195 of 44_keypad_timers.md; that there are these three timer moves is general knowledge (D1). -/
def Obligations.TimerMovesCopyBetweenTimersAndRegisters : Prop :=
  ∀ (s : State) (x : RegIdx),
    (∃ t, exec (.ldVxDT x) s = .next t ∧ (∀ r, t.readReg r = if r = x then s.dt else s.readReg r) ∧
      t.pc = s.pc + 2#16 ∧ ChangesOnly [.regs, .pc] s t) ∧
    (∃ t, exec (.ldDTVx x) s = .next t ∧ t.dt = s.readReg x ∧ t.pc = s.pc + 2#16 ∧ ChangesOnly [.dt, .pc] s t) ∧
    (∃ t, exec (.ldSTVx x) s = .next t ∧ t.st = s.readReg x ∧ t.pc = s.pc + 2#16 ∧ ChangesOnly [.st, .pc] s t ∧
      (∀ render, (t.outputs render).soundActive = true ↔ s.readReg x ≠ 0x00#8))

/-- Stated: R204 of 45_host_operations.md. -/
def Obligations.KeyUpClearsItsFlagOnly : Prop :=
  ∀ (s : State) (k : KeyIdx), ∃ t, hostOp (.keyUp k) s = .next t ∧
    (∀ j, t.readKey j = if j = k then false else s.readKey j) ∧ ChangesOnly [.key] s t

/-- Stated: R227 of 60_exceptions.md: no event redirects control. -/
def Obligations.HostEventsNeverChangePc : Prop :=
  ∀ (s : State) (k : KeyIdx),
    ChangesOnly [.dt, .st] s s.tickTimers ∧ ChangesOnly [.key] s (s.keyUp k) ∧
    ChangesOnly [.key, .regs, .run] s (s.keyDown k) ∧
    (s.run ≠ .awaitingKey → ChangesOnly [.key] s (s.keyDown k)) ∧
    (∀ r, r ≠ s.kx → (s.keyDown k).readReg r = s.readReg r)

/-- Derived: R33 of 10_state.md, the complete transition table; the Faulted state is decision D16. That a refused image
changes nothing is R262 of 70_reset_and_hazards.md (D20, log entry 28). -/
def Obligations.RunStateFollowsItsTransitionTable : Prop :=
  ∀ (op : HostOp) (s t : State), hostOp op s = .next t →
    match op with
    | .init image => if image.length ≤ 3584 then t.run = .running else t = s
    | .tickTimers => t.run = s.run
    | .keyUp _ => t.run = s.run
    | .keyDown _ => t.run = if s.run = .awaitingKey then .running else s.run
    | .step =>
      (s.run ≠ .running → t = s) ∧
      (s.run = .running → (t.run = .awaitingKey ↔ ∃ x, AboutToExecute s (.ldVxK x))) ∧
      (s.run = .running → (t.run = .faulted ↔ ∃ code info, FaultCondition s code info))

/-! ## Faults -/

/-- Derived: R221 to R224 of 60_exceptions.md (D6, D8, D15, D16): when a `step` faults, what it latches, and that it changes
nothing else. -/
def Obligations.FaultsLatchTheirCauseAndNothingElse : Prop :=
  ∀ (s t : State) (code : FaultCode) (info : Word), s.run = .running → FaultCondition s code info → step s = .next t →
    t.run = .faulted ∧ t.fault = ⟨code, s.pc, info⟩ ∧ ChangesOnly [.run, .fault] s t ∧ s.stepRender = false

/-- Derived: R225 of 60_exceptions.md (D16): no schedule without `init` leaves the Faulted state, overwrites the latch or
changes anything but the timers and the key flags. -/
def Obligations.FaultedIsPermanentUntilInit : Prop :=
  ∀ (ops : List HostOp) (s : State), s.run = .faulted → (∀ image, HostOp.init image ∉ ops) →
    ∃ t, runSchedule ops s = .next t ∧ ChangesOnly [.dt, .st, .key] s t

/-! ## Reset and invariants -/

/-- Derived: R40 of 10_state.md and R260 of 70_reset_and_hazards.md for the empty image; what the document does not state is
D9, D10, D16, D19 (log entries 4, 5), and the reset value of `draws` is not claimed. -/
def Obligations.ResetStateIsAsTabled : Prop :=
  (∀ r, State.reset.readReg r = 0x00#8) ∧ State.reset.I = 0x0000#16 ∧ State.reset.pc = 0x0200#16 ∧
  State.reset.sp.val = 0 ∧ (∀ (k : Nat) (h : k < 16), State.reset.stack[k] = 0x0000#16) ∧
  State.reset.dt = 0x00#8 ∧ State.reset.st = 0x00#8 ∧ (∀ row col, State.reset.fb.pixel row col = false) ∧
  (∀ k, State.reset.readKey k = false) ∧ State.reset.run = .running ∧ State.reset.kx = 0x0#4 ∧
  State.reset.fault = ⟨.noFault, 0x0000#16, 0x0000#16⟩ ∧
  (List.range 80).map (fun k => (State.reset.readByte (BitVec.ofNat 12 k)).toNat) =
    [0xF0, 0x90, 0x90, 0x90, 0xF0, 0x20, 0x60, 0x20, 0x20, 0x70, 0xF0, 0x10, 0xF0, 0x80, 0xF0, 0xF0, 0x10, 0xF0, 0x10, 0xF0] ++
    [0x90, 0x90, 0xF0, 0x10, 0x10, 0xF0, 0x80, 0xF0, 0x10, 0xF0, 0xF0, 0x80, 0xF0, 0x90, 0xF0, 0xF0, 0x10, 0x20, 0x40, 0x40] ++
    [0xF0, 0x90, 0xF0, 0x90, 0xF0, 0xF0, 0x90, 0xF0, 0x10, 0xF0, 0xF0, 0x90, 0xF0, 0x90, 0x90, 0xE0, 0x90, 0xE0, 0x90, 0xE0] ++
    [0xF0, 0x80, 0x80, 0x80, 0xF0, 0xE0, 0x90, 0x90, 0x90, 0xE0, 0xF0, 0x80, 0xF0, 0x80, 0xF0, 0xF0, 0x80, 0xF0, 0x80, 0x80] ∧
  (∀ a : Addr, 0x50 ≤ a.toNat → State.reset.readByte a = 0x00#8)

/-- Derived: R41 of 10_state.md ("[derived: from rule R40 ...]"), with the bounds of R24 and R122 and the canonical memory of
this model (log entry 7). -/
def Obligations.ResetMeetsTheInvariant : Prop := Inv State.reset

/-- Derived: R41 of 10_state.md, with the bounds of R24 and R122 and the canonical memory of this model (log entry 7). -/
def Obligations.StepKeepsTheInvariant : Prop :=
  ∀ s t : State, Inv s → step s = .next t → Inv t

/-- Derived: R41 of 10_state.md, with the bounds of R24 and R122 and the canonical memory of this model (log entry 7), over
R200, R207 of 45_host_operations.md: every accepted image starts in the invariant and every schedule of host operations,
finite or infinite, keeps it. -/
def Obligations.SchedulesKeepTheInvariant : Prop :=
  (∀ image : List Byte, image.length ≤ 3584 → ∃ t, State.initial image = some t ∧ Inv t) ∧
  (∀ c : CoreState, c.IsInitial → Inv c.withSource) ∧
  (∀ (ops : List HostOp) (s t : State), Inv s → runSchedule ops s = .next t → Inv t) ∧
  (∀ (sched : Schedule) (s : State), Inv s → ∀ n, ∃ t, runFor sched s n = .next t ∧ Inv t)

/-- Derived: R260, R261, R262 of 70_reset_and_hazards.md (D19, D20). `draws` is the model's own and is kept (log entry 2). The
initial states are exactly the results of `init`, on a machine in any state, with images of at most 3584 bytes. -/
def Obligations.InitLoadsTheImageOrRefusesIt : Prop :=
  (∀ (s : State) (image : List Byte),
    (image.length ≤ 3584 → ∃ t, hostOp (.init image) s = .next t ∧
      (∀ (k : Nat) (h : k < image.length), t.readByte (BitVec.ofNat 12 (0x200 + k)) = image[k]) ∧
      (∀ a : Addr, a.toNat < 0x200 ∨ 0x200 + image.length ≤ a.toNat → t.readByte a = State.reset.readByte a) ∧
      t.draws = s.draws ∧ ChangesOnly [.mem, .draws] State.reset t) ∧
    (3584 < image.length → hostOp (.init image) s = .next s ∧ CoreState.initial image = none)) ∧
  (∀ (s : State) (c : CoreState), c.IsInitial ↔
    ∃ (image : List Byte) (t : State), image.length ≤ 3584 ∧ hostOp (.init image) s = .next t ∧ c = t.toCoreState)

/-- Derived: R270 of 70_reset_and_hazards.md, the spec's own convention (D26): a finished program is a fixed point of `step`,
and the other host operations change only the timers and the keys and leave it finished. With R207 (D23): over an infinite
schedule without `init` in which ticks keep coming, a finished program's timers reach 0. -/
def Obligations.FinishedProgramsAreFixedPoints : Prop :=
  ∀ s : State, Finished s →
    step s = .next s ∧ s.stepRender = false ∧
    (∀ k, ∀ t ∈ [s.tickTimers, s.keyDown k, s.keyUp k], ChangesOnly [.dt, .st, .key] s t ∧ Finished t) ∧
    (∀ sched, NeverResets sched → TicksKeepComing sched →
      ∃ n t, runFor sched s n = .next t ∧ Finished t ∧ t.dt = 0x00#8 ∧ t.st = 0x00#8)

/-! ## The labelled transition system -/

/-- Derived: R200 of 45_host_operations.md with R20, R39 of 10_state.md and R151 of 41_alu.md (D16, D18): every operation but
`init` is a transition of the labelled system over exactly the state of R20, whose `step` label carries the draw; from every
such state every label has its transition. The draw of `step` is the model's free value (log entries 1, 2). -/
def Obligations.OperationsAreTransitionsOfTheCore : Prop :=
  (∀ (op : HostOp) (s : State) (l : Label), op.label (Config.randomByte s.draws) = some l →
    ∃ t, hostOp op s = .next t ∧ s.toCoreState.transition l = .next t.toCoreState) ∧
  (∀ (c : CoreState) (l : Label), ∃ d, c.transition l = .next d) ∧
  (∀ (c : CoreState) (r : Byte), (∀ x nn, ¬ AboutToExecute c.withSource (.rndVxNN x nn)) →
    c.transition (.step r) = c.transition (.step 0x00#8))
end

