-- ==== Sys2Proof/Laws/Decode.lean ====
section
/-! SUPPORT. The fields of words put together from nibbles and bytes, and the parts a word is put together from. -/

namespace Sys2Proof

section
variable (a b c d : BitVec 4) (k : Byte) (nnn : Addr)

@[simp] theorem opField_nnn : opField (a ++ nnn) = a := by
  apply BitVec.eq_of_toNat_eq
  have := a.isLt
  have := nnn.isLt
  simp only [opField, BitVec.extractLsb'_toNat, BitVec.toNat_append, Nat.shiftRight_eq_div_pow]
  rw [← Nat.shiftLeft_add_eq_or_of_lt nnn.isLt, Nat.shiftLeft_eq]
  omega

@[simp] theorem nnnField_nnn : nnnField (a ++ nnn) = nnn := by
  apply BitVec.eq_of_toNat_eq
  have := a.isLt
  have := nnn.isLt
  simp only [nnnField, BitVec.extractLsb'_toNat, BitVec.toNat_append, Nat.shiftRight_eq_div_pow]
  rw [← Nat.shiftLeft_add_eq_or_of_lt nnn.isLt, Nat.shiftLeft_eq]
  omega

/-- A word of a nibble, a nibble and a byte, as a number. -/
theorem toNat_nibbles_byte : (a ++ b ++ k : BitVec 16).toNat = a.toNat * 4096 + b.toNat * 256 + k.toNat := by
  have := b.isLt
  have := k.isLt
  simp only [BitVec.toNat_append]
  rw [← Nat.shiftLeft_add_eq_or_of_lt b.isLt, ← Nat.shiftLeft_add_eq_or_of_lt k.isLt, Nat.shiftLeft_eq, Nat.shiftLeft_eq]
  omega

/-- A word of four nibbles, as a number. -/
theorem toNat_nibbles : (a ++ b ++ c ++ d : BitVec 16).toNat =
    a.toNat * 4096 + b.toNat * 256 + c.toNat * 16 + d.toNat := by
  have := b.isLt
  have := c.isLt
  have := d.isLt
  simp only [BitVec.toNat_append]
  rw [← Nat.shiftLeft_add_eq_or_of_lt b.isLt, ← Nat.shiftLeft_add_eq_or_of_lt c.isLt,
    ← Nat.shiftLeft_add_eq_or_of_lt d.isLt, Nat.shiftLeft_eq, Nat.shiftLeft_eq, Nat.shiftLeft_eq]
  omega

/-- A word of a nibble and an address, as a number. -/
theorem toNat_nibble_nnn : (a ++ nnn : BitVec 16).toNat = a.toNat * 4096 + nnn.toNat := by
  simp only [BitVec.toNat_append]
  rw [← Nat.shiftLeft_add_eq_or_of_lt nnn.isLt, Nat.shiftLeft_eq]

end

/-! ## Fields as numbers -/

theorem opField_toNat (w : Word) : (opField w).toNat = w.toNat / 4096 := by
  have := w.isLt
  simp only [opField, BitVec.extractLsb'_toNat, Nat.shiftRight_eq_div_pow]
  omega

theorem nnnField_toNat (w : Word) : (nnnField w).toNat = w.toNat % 4096 := by
  simp [nnnField, BitVec.extractLsb'_toNat]

theorem nnField_toNat (w : Word) : (nnField w).toNat = w.toNat % 256 := by
  simp [nnField, BitVec.extractLsb'_toNat]

theorem xField_toNat (w : Word) : (xField w).toNat = w.toNat / 256 % 16 := by
  simp [xField, BitVec.extractLsb'_toNat, Nat.shiftRight_eq_div_pow]

theorem yField_toNat (w : Word) : (yField w).toNat = w.toNat / 16 % 16 := by
  simp [yField, BitVec.extractLsb'_toNat, Nat.shiftRight_eq_div_pow]

theorem nField_toNat (w : Word) : (nField w).toNat = w.toNat % 16 := by
  simp [nField, BitVec.extractLsb'_toNat]

section
variable (a b c d : BitVec 4) (k : Byte)

@[simp] theorem opField_byte : opField (a ++ b ++ k) = a := by
  apply BitVec.eq_of_toNat_eq
  rw [opField_toNat, toNat_nibbles_byte]; have := b.isLt; have := k.isLt; omega
@[simp] theorem xField_byte : xField (a ++ b ++ k) = b := by
  apply BitVec.eq_of_toNat_eq
  rw [xField_toNat, toNat_nibbles_byte]; have := b.isLt; have := k.isLt; omega
@[simp] theorem nnField_byte : nnField (a ++ b ++ k) = k := by
  apply BitVec.eq_of_toNat_eq
  rw [nnField_toNat, toNat_nibbles_byte]; have := b.isLt; have := k.isLt; omega
@[simp] theorem opField_nibbles : opField (a ++ b ++ c ++ d) = a := by
  apply BitVec.eq_of_toNat_eq
  rw [opField_toNat, toNat_nibbles]; have := b.isLt; have := c.isLt; have := d.isLt; omega
@[simp] theorem xField_nibbles : xField (a ++ b ++ c ++ d) = b := by
  apply BitVec.eq_of_toNat_eq
  rw [xField_toNat, toNat_nibbles]; have := b.isLt; have := c.isLt; have := d.isLt; omega
@[simp] theorem yField_nibbles : yField (a ++ b ++ c ++ d) = c := by
  apply BitVec.eq_of_toNat_eq
  rw [yField_toNat, toNat_nibbles]; have := b.isLt; have := c.isLt; have := d.isLt; omega
@[simp] theorem nField_nibbles : nField (a ++ b ++ c ++ d) = d := by
  apply BitVec.eq_of_toNat_eq
  rw [nField_toNat, toNat_nibbles]; have := b.isLt; have := c.isLt; have := d.isLt; omega

end

/-! ## A word from its fields -/

theorem word_of_op_nnn (w : Word) : opField w ++ nnnField w = w := by
  apply BitVec.eq_of_toNat_eq
  have := w.isLt
  rw [toNat_nibble_nnn, opField_toNat, nnnField_toNat]; omega

theorem word_of_op_x_nn (w : Word) : opField w ++ xField w ++ nnField w = w := by
  apply BitVec.eq_of_toNat_eq
  have := w.isLt
  rw [toNat_nibbles_byte, opField_toNat, xField_toNat, nnField_toNat]; omega

theorem word_of_nibbles (w : Word) : opField w ++ xField w ++ yField w ++ nField w = w := by
  apply BitVec.eq_of_toNat_eq
  have := w.isLt
  rw [toNat_nibbles, opField_toNat, xField_toNat, yField_toNat, nField_toNat]; omega

/-- Laying a word out as two bytes and reading them back gives the word (R68). -/
@[simp] theorem wordOfBytes_bytes (w : Word) : wordOfBytes (firstByte w) (secondByte w) = w := by
  apply BitVec.eq_of_toNat_eq
  have := w.isLt
  have := (secondByte w).isLt
  simp only [wordOfBytes, BitVec.toNat_append]
  rw [← Nat.shiftLeft_add_eq_or_of_lt (secondByte w).isLt, Nat.shiftLeft_eq]
  simp only [firstByte, secondByte, BitVec.extractLsb'_toNat, Nat.shiftRight_eq_div_pow]
  omega

/-! ## The four masks of the opcode map (R94) -/

theorem and_F000 (w : Word) : w &&& 0xF000#16 = opField w ++ 0x000#12 := by
  apply BitVec.eq_of_getLsbD_eq
  intro i hi
  rw [BitVec.getLsbD_append]
  interval_cases i <;> simp [opField]

theorem and_F00F (w : Word) : w &&& 0xF00F#16 = opField w ++ 0x00#8 ++ nField w := by
  apply BitVec.eq_of_getLsbD_eq
  intro i hi
  rw [BitVec.getLsbD_append, BitVec.getLsbD_append]
  interval_cases i <;> simp [opField, nField]

theorem and_F0FF (w : Word) : w &&& 0xF0FF#16 = opField w ++ 0x0#4 ++ nnField w := by
  apply BitVec.eq_of_getLsbD_eq
  intro i hi
  rw [BitVec.getLsbD_append, BitVec.getLsbD_append]
  interval_cases i <;> simp [opField, nnField]

theorem and_FFFF (w : Word) : w &&& 0xFFFF#16 = w := BitVec.and_allOnes

/-! ## Which rows a word selects (R94): masked comparison as comparison of fields -/

theorem opField_and_F00F (w : Word) : opField (w &&& 0xF00F#16) = opField w := by
  apply BitVec.eq_of_getLsbD_eq
  intro i hi
  interval_cases i <;> simp [opField]

theorem nField_and_F00F (w : Word) : nField (w &&& 0xF00F#16) = nField w := by
  apply BitVec.eq_of_getLsbD_eq
  intro i hi
  interval_cases i <;> simp [nField]

theorem select_F000 (w p : Word) (h : p &&& 0xF000#16 = p) : (w &&& 0xF000#16 == p) = (opField w == opField p) := by
  rw [Bool.eq_iff_iff, beq_iff_eq, beq_iff_eq]
  constructor
  · rintro rfl; rw [and_F000, opField_nnn]
  · intro e; rw [and_F000, e, ← and_F000, h]

theorem select_F00F (w p : Word) (h : p &&& 0xF00F#16 = p) :
    (w &&& 0xF00F#16 == p) = (opField w == opField p && nField w == nField p) := by
  rw [Bool.eq_iff_iff, beq_iff_eq, Bool.and_eq_true, beq_iff_eq, beq_iff_eq]
  constructor
  · rintro rfl; exact ⟨(opField_and_F00F w).symm, (nField_and_F00F w).symm⟩
  · rintro ⟨e, e'⟩; rw [and_F00F, e, e', ← and_F00F, h]

theorem select_F0FF (w p : Word) (h : p &&& 0xF0FF#16 = p) :
    (w &&& 0xF0FF#16 == p) = (opField w == opField p && nnField w == nnField p) := by
  rw [Bool.eq_iff_iff, beq_iff_eq, Bool.and_eq_true, beq_iff_eq, beq_iff_eq]
  constructor
  · rintro rfl; rw [and_F0FF, opField_byte, nnField_byte]; exact ⟨rfl, rfl⟩
  · rintro ⟨e, e'⟩; rw [and_F0FF, e, e', ← and_F0FF, h]

theorem select_FFFF (w p : Word) :
    (w &&& 0xFFFF#16 == p) = (opField w == opField p && nnnField w == nnnField p) := by
  rw [Bool.eq_iff_iff, beq_iff_eq, Bool.and_eq_true, beq_iff_eq, beq_iff_eq, and_FFFF]
  constructor
  · rintro rfl; exact ⟨rfl, rfl⟩
  · rintro ⟨e, e'⟩; rw [← word_of_op_nnn w, e, e', word_of_op_nnn]

end Sys2Proof
end

