-- ==== Sys2Proof/Laws/State.lean ====
section
/-! SUPPORT. One lemma per field and update of the state, so that no later proof unfolds a record update, and the register,
key and pixel read-after-write laws. -/

namespace Sys2Proof.Machine

/-! ## Field projections of the updates -/

section
variable (s : State) (r : RegIdx) (v : Byte) (w : Word) (c : FaultCode) (b : Bool) (k : KeyIdx) (f : Framebuffer)

@[simp] theorem State.writeReg_regs : (s.writeReg r v).regs = s.regs.set r.toNat v r.isLt := rfl
@[simp] theorem State.writeReg_I : (s.writeReg r v).I = s.I := rfl
@[simp] theorem State.writeReg_pc : (s.writeReg r v).pc = s.pc := rfl
@[simp] theorem State.writeReg_sp : (s.writeReg r v).sp = s.sp := rfl
@[simp] theorem State.writeReg_stack : (s.writeReg r v).stack = s.stack := rfl
@[simp] theorem State.writeReg_dt : (s.writeReg r v).dt = s.dt := rfl
@[simp] theorem State.writeReg_st : (s.writeReg r v).st = s.st := rfl
@[simp] theorem State.writeReg_mem : (s.writeReg r v).mem = s.mem := rfl
@[simp] theorem State.writeReg_fb : (s.writeReg r v).fb = s.fb := rfl
@[simp] theorem State.writeReg_key : (s.writeReg r v).key = s.key := rfl
@[simp] theorem State.writeReg_run : (s.writeReg r v).run = s.run := rfl
@[simp] theorem State.writeReg_kx : (s.writeReg r v).kx = s.kx := rfl
@[simp] theorem State.writeReg_fault : (s.writeReg r v).fault = s.fault := rfl
@[simp] theorem State.writeReg_draws : (s.writeReg r v).draws = s.draws := rfl

@[simp] theorem State.setI_regs : (s.setI w).regs = s.regs := rfl
@[simp] theorem State.setI_I : (s.setI w).I = w := rfl
@[simp] theorem State.setI_pc : (s.setI w).pc = s.pc := rfl
@[simp] theorem State.setI_sp : (s.setI w).sp = s.sp := rfl
@[simp] theorem State.setI_stack : (s.setI w).stack = s.stack := rfl
@[simp] theorem State.setI_dt : (s.setI w).dt = s.dt := rfl
@[simp] theorem State.setI_st : (s.setI w).st = s.st := rfl
@[simp] theorem State.setI_mem : (s.setI w).mem = s.mem := rfl
@[simp] theorem State.setI_fb : (s.setI w).fb = s.fb := rfl
@[simp] theorem State.setI_key : (s.setI w).key = s.key := rfl
@[simp] theorem State.setI_run : (s.setI w).run = s.run := rfl
@[simp] theorem State.setI_kx : (s.setI w).kx = s.kx := rfl
@[simp] theorem State.setI_fault : (s.setI w).fault = s.fault := rfl
@[simp] theorem State.setI_draws : (s.setI w).draws = s.draws := rfl

@[simp] theorem State.setPc_regs : (s.setPc w).regs = s.regs := rfl
@[simp] theorem State.setPc_I : (s.setPc w).I = s.I := rfl
@[simp] theorem State.setPc_pc : (s.setPc w).pc = w := rfl
@[simp] theorem State.setPc_sp : (s.setPc w).sp = s.sp := rfl
@[simp] theorem State.setPc_stack : (s.setPc w).stack = s.stack := rfl
@[simp] theorem State.setPc_dt : (s.setPc w).dt = s.dt := rfl
@[simp] theorem State.setPc_st : (s.setPc w).st = s.st := rfl
@[simp] theorem State.setPc_mem : (s.setPc w).mem = s.mem := rfl
@[simp] theorem State.setPc_fb : (s.setPc w).fb = s.fb := rfl
@[simp] theorem State.setPc_key : (s.setPc w).key = s.key := rfl
@[simp] theorem State.setPc_run : (s.setPc w).run = s.run := rfl
@[simp] theorem State.setPc_kx : (s.setPc w).kx = s.kx := rfl
@[simp] theorem State.setPc_fault : (s.setPc w).fault = s.fault := rfl
@[simp] theorem State.setPc_draws : (s.setPc w).draws = s.draws := rfl

@[simp] theorem State.advance_regs : s.advance.regs = s.regs := rfl
@[simp] theorem State.advance_I : s.advance.I = s.I := rfl
@[simp] theorem State.advance_pc : s.advance.pc = s.pc + 2#16 := rfl
@[simp] theorem State.advance_sp : s.advance.sp = s.sp := rfl
@[simp] theorem State.advance_stack : s.advance.stack = s.stack := rfl
@[simp] theorem State.advance_dt : s.advance.dt = s.dt := rfl
@[simp] theorem State.advance_st : s.advance.st = s.st := rfl
@[simp] theorem State.advance_mem : s.advance.mem = s.mem := rfl
@[simp] theorem State.advance_fb : s.advance.fb = s.fb := rfl
@[simp] theorem State.advance_key : s.advance.key = s.key := rfl
@[simp] theorem State.advance_run : s.advance.run = s.run := rfl
@[simp] theorem State.advance_kx : s.advance.kx = s.kx := rfl
@[simp] theorem State.advance_fault : s.advance.fault = s.fault := rfl
@[simp] theorem State.advance_draws : s.advance.draws = s.draws := rfl

@[simp] theorem State.skipIf_regs : (s.skipIf b).regs = s.regs := rfl
@[simp] theorem State.skipIf_I : (s.skipIf b).I = s.I := rfl
@[simp] theorem State.skipIf_pc : (s.skipIf b).pc = if b then s.pc + 4#16 else s.pc + 2#16 := rfl
@[simp] theorem State.skipIf_sp : (s.skipIf b).sp = s.sp := rfl
@[simp] theorem State.skipIf_stack : (s.skipIf b).stack = s.stack := rfl
@[simp] theorem State.skipIf_dt : (s.skipIf b).dt = s.dt := rfl
@[simp] theorem State.skipIf_st : (s.skipIf b).st = s.st := rfl
@[simp] theorem State.skipIf_mem : (s.skipIf b).mem = s.mem := rfl
@[simp] theorem State.skipIf_fb : (s.skipIf b).fb = s.fb := rfl
@[simp] theorem State.skipIf_key : (s.skipIf b).key = s.key := rfl
@[simp] theorem State.skipIf_run : (s.skipIf b).run = s.run := rfl
@[simp] theorem State.skipIf_kx : (s.skipIf b).kx = s.kx := rfl
@[simp] theorem State.skipIf_fault : (s.skipIf b).fault = s.fault := rfl
@[simp] theorem State.skipIf_draws : (s.skipIf b).draws = s.draws := rfl

@[simp] theorem State.raise_regs : (s.raise c w).regs = s.regs := rfl
@[simp] theorem State.raise_I : (s.raise c w).I = s.I := rfl
@[simp] theorem State.raise_pc : (s.raise c w).pc = s.pc := rfl
@[simp] theorem State.raise_sp : (s.raise c w).sp = s.sp := rfl
@[simp] theorem State.raise_stack : (s.raise c w).stack = s.stack := rfl
@[simp] theorem State.raise_dt : (s.raise c w).dt = s.dt := rfl
@[simp] theorem State.raise_st : (s.raise c w).st = s.st := rfl
@[simp] theorem State.raise_mem : (s.raise c w).mem = s.mem := rfl
@[simp] theorem State.raise_fb : (s.raise c w).fb = s.fb := rfl
@[simp] theorem State.raise_key : (s.raise c w).key = s.key := rfl
@[simp] theorem State.raise_run : (s.raise c w).run = .faulted := rfl
@[simp] theorem State.raise_kx : (s.raise c w).kx = s.kx := rfl
@[simp] theorem State.raise_fault : (s.raise c w).fault = ⟨c, s.pc, w⟩ := rfl
@[simp] theorem State.raise_draws : (s.raise c w).draws = s.draws := rfl

@[simp] theorem State.setKey_regs : (s.setKey k b).regs = s.regs := rfl
@[simp] theorem State.setKey_I : (s.setKey k b).I = s.I := rfl
@[simp] theorem State.setKey_pc : (s.setKey k b).pc = s.pc := rfl
@[simp] theorem State.setKey_sp : (s.setKey k b).sp = s.sp := rfl
@[simp] theorem State.setKey_stack : (s.setKey k b).stack = s.stack := rfl
@[simp] theorem State.setKey_dt : (s.setKey k b).dt = s.dt := rfl
@[simp] theorem State.setKey_st : (s.setKey k b).st = s.st := rfl
@[simp] theorem State.setKey_mem : (s.setKey k b).mem = s.mem := rfl
@[simp] theorem State.setKey_fb : (s.setKey k b).fb = s.fb := rfl
@[simp] theorem State.setKey_key : (s.setKey k b).key = s.key.set k.toNat b k.isLt := rfl
@[simp] theorem State.setKey_run : (s.setKey k b).run = s.run := rfl
@[simp] theorem State.setKey_kx : (s.setKey k b).kx = s.kx := rfl
@[simp] theorem State.setKey_fault : (s.setKey k b).fault = s.fault := rfl
@[simp] theorem State.setKey_draws : (s.setKey k b).draws = s.draws := rfl

@[simp] theorem State.tickTimers_regs : s.tickTimers.regs = s.regs := rfl
@[simp] theorem State.tickTimers_I : s.tickTimers.I = s.I := rfl
@[simp] theorem State.tickTimers_pc : s.tickTimers.pc = s.pc := rfl
@[simp] theorem State.tickTimers_sp : s.tickTimers.sp = s.sp := rfl
@[simp] theorem State.tickTimers_stack : s.tickTimers.stack = s.stack := rfl
@[simp] theorem State.tickTimers_dt : s.tickTimers.dt = tickDown s.dt := rfl
@[simp] theorem State.tickTimers_st : s.tickTimers.st = tickDown s.st := rfl
@[simp] theorem State.tickTimers_mem : s.tickTimers.mem = s.mem := rfl
@[simp] theorem State.tickTimers_fb : s.tickTimers.fb = s.fb := rfl
@[simp] theorem State.tickTimers_key : s.tickTimers.key = s.key := rfl
@[simp] theorem State.tickTimers_run : s.tickTimers.run = s.run := rfl
@[simp] theorem State.tickTimers_kx : s.tickTimers.kx = s.kx := rfl
@[simp] theorem State.tickTimers_fault : s.tickTimers.fault = s.fault := rfl
@[simp] theorem State.tickTimers_draws : s.tickTimers.draws = s.draws := rfl

@[simp] theorem State.writeResultThenFlag_regs : (s.writeResultThenFlag r v b).regs = ((s.regs.set r.toNat v r.isLt).set 15 (flagByte b)) := rfl
@[simp] theorem State.writeResultThenFlag_I : (s.writeResultThenFlag r v b).I = s.I := rfl
@[simp] theorem State.writeResultThenFlag_pc : (s.writeResultThenFlag r v b).pc = s.pc := rfl
@[simp] theorem State.writeResultThenFlag_sp : (s.writeResultThenFlag r v b).sp = s.sp := rfl
@[simp] theorem State.writeResultThenFlag_stack : (s.writeResultThenFlag r v b).stack = s.stack := rfl
@[simp] theorem State.writeResultThenFlag_dt : (s.writeResultThenFlag r v b).dt = s.dt := rfl
@[simp] theorem State.writeResultThenFlag_st : (s.writeResultThenFlag r v b).st = s.st := rfl
@[simp] theorem State.writeResultThenFlag_mem : (s.writeResultThenFlag r v b).mem = s.mem := rfl
@[simp] theorem State.writeResultThenFlag_fb : (s.writeResultThenFlag r v b).fb = s.fb := rfl
@[simp] theorem State.writeResultThenFlag_key : (s.writeResultThenFlag r v b).key = s.key := rfl
@[simp] theorem State.writeResultThenFlag_run : (s.writeResultThenFlag r v b).run = s.run := rfl
@[simp] theorem State.writeResultThenFlag_kx : (s.writeResultThenFlag r v b).kx = s.kx := rfl
@[simp] theorem State.writeResultThenFlag_fault : (s.writeResultThenFlag r v b).fault = s.fault := rfl
@[simp] theorem State.writeResultThenFlag_draws : (s.writeResultThenFlag r v b).draws = s.draws := rfl

@[simp] theorem State.keyUp_regs : (s.keyUp k).regs = s.regs := rfl
@[simp] theorem State.keyUp_I : (s.keyUp k).I = s.I := rfl
@[simp] theorem State.keyUp_pc : (s.keyUp k).pc = s.pc := rfl
@[simp] theorem State.keyUp_sp : (s.keyUp k).sp = s.sp := rfl
@[simp] theorem State.keyUp_stack : (s.keyUp k).stack = s.stack := rfl
@[simp] theorem State.keyUp_dt : (s.keyUp k).dt = s.dt := rfl
@[simp] theorem State.keyUp_st : (s.keyUp k).st = s.st := rfl
@[simp] theorem State.keyUp_mem : (s.keyUp k).mem = s.mem := rfl
@[simp] theorem State.keyUp_fb : (s.keyUp k).fb = s.fb := rfl
@[simp] theorem State.keyUp_key : (s.keyUp k).key = s.key.set k.toNat false k.isLt := rfl
@[simp] theorem State.keyUp_run : (s.keyUp k).run = s.run := rfl
@[simp] theorem State.keyUp_kx : (s.keyUp k).kx = s.kx := rfl
@[simp] theorem State.keyUp_fault : (s.keyUp k).fault = s.fault := rfl
@[simp] theorem State.keyUp_draws : (s.keyUp k).draws = s.draws := rfl

end

/-! ## Registers -/

/-- A register read looks at the register file alone. -/
theorem State.readReg_of_regs {s t : State} (h : t.regs = s.regs) (r : RegIdx) : t.readReg r = s.readReg r := by
  simp [State.readReg, h]

@[simp] theorem State.readReg_writeReg (s : State) (x r : RegIdx) (v : Byte) :
    (s.writeReg x v).readReg r = if r = x then v else s.readReg r := by
  by_cases h : r = x
  · subst h; simp [State.readReg, State.writeReg]
  · have h' : x.toNat ≠ r.toNat := fun e => h (BitVec.eq_of_toNat_eq e.symm)
    simp [State.readReg, State.writeReg, h, h']

@[simp] theorem State.readReg_writeResultThenFlag (s : State) (x r : RegIdx) (v : Byte) (b : Bool) :
    (s.writeResultThenFlag x v b).readReg r =
      if r = 0xF#4 then flagByte b else if r = x then v else s.readReg r := by
  simp [State.writeResultThenFlag, flagReg]

@[simp] theorem State.readReg_setI (s : State) (w : Word) (r : RegIdx) : (s.setI w).readReg r = s.readReg r := rfl
@[simp] theorem State.readReg_setPc (s : State) (w : Word) (r : RegIdx) : (s.setPc w).readReg r = s.readReg r := rfl
@[simp] theorem State.readReg_advance (s : State)  (r : RegIdx) : s.advance.readReg r = s.readReg r := rfl
@[simp] theorem State.readReg_skipIf (s : State) (b : Bool) (r : RegIdx) : (s.skipIf b).readReg r = s.readReg r := rfl
@[simp] theorem State.readReg_raise (s : State) (c : FaultCode) (w : Word) (r : RegIdx) : (s.raise c w).readReg r = s.readReg r := rfl
@[simp] theorem State.readReg_setKey (s : State) (k : KeyIdx) (b : Bool) (r : RegIdx) : (s.setKey k b).readReg r = s.readReg r := rfl
@[simp] theorem State.readReg_keyUp (s : State) (k : KeyIdx) (r : RegIdx) : (s.keyUp k).readReg r = s.readReg r := rfl
@[simp] theorem State.readReg_tickTimers (s : State)  (r : RegIdx) : s.tickTimers.readReg r = s.readReg r := rfl

/-! ## Memory reads of the updates -/

/-- A memory read looks at the memory alone. -/
theorem State.readByte_of_mem {s t : State} (h : t.mem = s.mem) (a : Addr) : t.readByte a = s.readByte a := by
  simp [State.readByte, h]

@[simp] theorem State.readByte_writeReg (s : State) (r : RegIdx) (v : Byte) (a : Addr) : (s.writeReg r v).readByte a = s.readByte a := rfl
@[simp] theorem State.readByte_writeResultThenFlag (s : State) (r : RegIdx) (v : Byte) (b : Bool) (a : Addr) : (s.writeResultThenFlag r v b).readByte a = s.readByte a := rfl
@[simp] theorem State.readByte_setI (s : State) (w : Word) (a : Addr) : (s.setI w).readByte a = s.readByte a := rfl
@[simp] theorem State.readByte_setPc (s : State) (w : Word) (a : Addr) : (s.setPc w).readByte a = s.readByte a := rfl
@[simp] theorem State.readByte_advance (s : State)  (a : Addr) : s.advance.readByte a = s.readByte a := rfl
@[simp] theorem State.readByte_skipIf (s : State) (b : Bool) (a : Addr) : (s.skipIf b).readByte a = s.readByte a := rfl
@[simp] theorem State.readByte_raise (s : State) (c : FaultCode) (w : Word) (a : Addr) : (s.raise c w).readByte a = s.readByte a := rfl
@[simp] theorem State.readByte_setKey (s : State) (k : KeyIdx) (b : Bool) (a : Addr) : (s.setKey k b).readByte a = s.readByte a := rfl
@[simp] theorem State.readByte_keyUp (s : State) (k : KeyIdx) (a : Addr) : (s.keyUp k).readByte a = s.readByte a := rfl
@[simp] theorem State.readByte_tickTimers (s : State)  (a : Addr) : s.tickTimers.readByte a = s.readByte a := rfl

/-! ## Keys -/

@[simp] theorem State.readKey_setKey (s : State) (k j : KeyIdx) (b : Bool) :
    (s.setKey k b).readKey j = if j = k then b else s.readKey j := by
  by_cases h : j = k
  · subst h; simp [State.readKey, State.setKey]
  · have h' : k.toNat ≠ j.toNat := fun e => h (BitVec.eq_of_toNat_eq e.symm)
    simp [State.readKey, State.setKey, h, h']

/-! ## Host operations -/

/-- A `keyDown` in the wait sets the flag, writes the key number to the waiting register and resumes (R203). -/
theorem State.keyDown_of_awaitingKey (s : State) (k : KeyIdx) (h : s.run = .awaitingKey) :
    s.keyDown k = { (s.setKey k true).writeReg s.kx (k.setWidth 8) with run := .running } := by
  simp [State.keyDown, h]

/-- A `keyDown` outside the wait sets the flag only (R203). -/
theorem State.keyDown_of_ne (s : State) (k : KeyIdx) (h : s.run ≠ .awaitingKey) : s.keyDown k = s.setKey k true := by
  unfold State.keyDown
  split <;> simp_all

@[simp] theorem State.readKey_keyDown (s : State) (k j : KeyIdx) :
    (s.keyDown k).readKey j = if j = k then true else s.readKey j := by
  by_cases h : s.run = .awaitingKey
  · rw [s.keyDown_of_awaitingKey k h]; exact s.readKey_setKey k j true
  · rw [s.keyDown_of_ne k h]; exact s.readKey_setKey k j true

@[simp] theorem State.readKey_keyUp (s : State) (k j : KeyIdx) :
    (s.keyUp k).readKey j = if j = k then false else s.readKey j := s.readKey_setKey k j false

/-- A tick is saturating subtraction of 1 (R202). -/
@[simp] theorem tickDown_toNat (t : Byte) : (tickDown t).toNat = t.toNat - 1 := by revert t; decide

/-! ## Frames -/

theorem ChangesOnly.refl (parts : List Part) (s : State) : ChangesOnly parts s s := by
  intro p _; cases p <;> simp [Part.same]

theorem ChangesOnly.mono {parts more : List Part} {s t : State} (h : ChangesOnly parts s t) (sub : parts ⊆ more) :
    ChangesOnly more s t := fun p hp => h p (fun hin => hp (sub hin))

/-- A frame from the parts that are the same. -/
theorem changesOnly_of_same {parts : List Part} {s t : State} (h : ∀ p, p ∈ parts ∨ p.same s t) :
    ChangesOnly parts s t := fun p hp => (h p).resolve_left hp

end Sys2Proof.Machine
end

