-- ==== Sys2Proof/Laws/Memory.lean ====
section
/-! SUPPORT. Memory: a read after a write, writes of several cells, the canonical form is kept by every operation, and two
canonical memories that read alike are equal. -/

namespace Sys2Proof.Machine

/-! ## Read after write -/

theorem Memory.readAt_insertCell_ne (m : Memory) (cell : Host.Cell) (a : Nat) (h : cell.1 ≠ a) :
    Memory.readAt (Memory.insertCell m cell) a = Memory.readAt m a := by
  induction m with
  | nil => simp [Memory.insertCell, Memory.readAt, h]
  | cons head rest ih =>
    unfold Memory.insertCell
    split
    · simp [Memory.readAt, h]
    · simp [Memory.readAt, ih]

theorem Memory.readAt_insertCell_self (m : Memory) (cell : Host.Cell) (h : ∀ c ∈ m, c.1 ≠ cell.1) :
    Memory.readAt (Memory.insertCell m cell) cell.1 = cell.2 := by
  induction m with
  | nil => simp [Memory.insertCell, Memory.readAt]
  | cons head rest ih =>
    unfold Memory.insertCell
    split
    · simp [Memory.readAt]
    · simp only [Memory.readAt, h head (by simp), if_false]
      exact ih (fun c hc => h c (by simp [hc]))

theorem Memory.readAt_filter_ne (m : Memory) (a b : Nat) (h : a ≠ b) :
    Memory.readAt (List.filter (fun cell => cell.1 != a) m) b = Memory.readAt m b := by
  induction m with
  | nil => rfl
  | cons head rest ih =>
    by_cases hh : head.1 = a
    · have : head.1 ≠ b := fun e => h (hh.symm.trans e)
      simp [hh, Memory.readAt, ih, h]
    · simp [hh, Memory.readAt, ih]

theorem Memory.readAt_of_forall_ne (m : Memory) (a : Nat) (h : ∀ c ∈ m, c.1 ≠ a) :
    Memory.readAt m a = Memory.background a := by
  induction m with
  | nil => rfl
  | cons head rest ih => simp [Memory.readAt, h head (by simp), ih (fun c hc => h c (by simp [hc]))]

theorem Memory.filter_ne (m : Memory) (a : Nat) : ∀ c ∈ List.filter (fun cell => cell.1 != a) m, c.1 ≠ a := by
  intro c hc; simpa using (List.mem_filter.mp hc).2

/-- What a write does to every later read of one byte. -/
@[simp] theorem Memory.read_write (m : Memory) (a b : Addr) (v : Byte) :
    Memory.read (Memory.write m a v) b = if b = a then v else Memory.read m b := by
  have hne := Memory.filter_ne m a.toNat
  unfold Memory.read Memory.write
  by_cases hb : b = a
  · subst hb
    by_cases hv : v = Memory.background b.toNat
    · simp only [if_pos hv, if_true]
      rw [Memory.readAt_of_forall_ne _ _ hne, hv]
    · simp only [if_neg hv, if_true]
      exact Memory.readAt_insertCell_self _ (b.toNat, v) hne
  · have hab : a.toNat ≠ b.toNat := fun e => hb (BitVec.eq_of_toNat_eq e.symm)
    by_cases hv : v = Memory.background a.toNat
    · simp only [if_pos hv, if_neg hb]
      exact Memory.readAt_filter_ne m _ _ hab
    · simp only [if_neg hv, if_neg hb]
      rw [Memory.readAt_insertCell_ne _ (a.toNat, v) _ hab, Memory.readAt_filter_ne m _ _ hab]

/-! ## Several writes -/

@[simp] theorem Memory.writeAll_nil (m : Memory) : Memory.writeAll m [] = m := rfl

@[simp] theorem Memory.writeAll_cons (m : Memory) (c : Addr × Byte) (cs : List (Addr × Byte)) :
    Memory.writeAll m (c :: cs) = Memory.writeAll (Memory.write m c.1 c.2) cs := rfl

/-- An address that is no target reads as before. -/
theorem Memory.read_writeAll_of_notMem (m : Memory) (cells : List (Addr × Byte)) (a : Addr)
    (h : a ∉ cells.map Prod.fst) : Memory.read (Memory.writeAll m cells) a = Memory.read m a := by
  induction cells generalizing m with
  | nil => rfl
  | cons c cs ih =>
    simp only [List.map_cons, List.mem_cons, not_or] at h
    rw [Memory.writeAll_cons, ih _ h.2, Memory.read_write, if_neg h.1]

/-- A target of writes to different addresses reads as the byte stored there. -/
theorem Memory.read_writeAll_of_mem (m : Memory) (cells : List (Addr × Byte)) (a : Addr) (v : Byte)
    (nodup : (cells.map Prod.fst).Nodup) (h : (a, v) ∈ cells) : Memory.read (Memory.writeAll m cells) a = v := by
  induction cells generalizing m with
  | nil => simp at h
  | cons c cs ih =>
    simp only [List.map_cons, List.nodup_cons] at nodup
    rw [Memory.writeAll_cons]
    rcases List.mem_cons.mp h with rfl | h
    · rw [Memory.read_writeAll_of_notMem _ _ _ nodup.1]; simp
    · exact ih _ nodup.2 h

/-! ## The canonical form -/

/-- The canonical form as a pairwise property. -/
theorem Memory.rising_iff (m : Memory) : Memory.rising m = true ↔ m.Pairwise (fun a b => a.1 < b.1) := by
  induction m with
  | nil => simp [Memory.rising]
  | cons a rest ih =>
    cases rest with
    | nil => simp [Memory.rising]
    | cons b rest =>
      simp only [Memory.rising, Bool.and_eq_true, decide_eq_true_eq, ih, List.pairwise_cons]
      constructor
      · rintro ⟨hab, hb, hr⟩
        refine ⟨?_, hb, hr⟩
        intro c hc
        rcases List.mem_cons.mp hc with rfl | hc
        · exact hab
        · exact hab.trans (hb c hc)
      · rintro ⟨ha, hb, hr⟩
        exact ⟨ha b (by simp), hb, hr⟩

theorem Memory.wf_iff (m : Memory) : Memory.wf m = true ↔
    m.Pairwise (fun a b => a.1 < b.1) ∧ ∀ c ∈ m, c.1 < 4096 ∧ c.2 ≠ Memory.background c.1 := by
  simp [Memory.wf, Memory.rising_iff]

theorem Memory.mem_insertCell (m : Memory) (cell c : Host.Cell) :
    c ∈ Memory.insertCell m cell ↔ c = cell ∨ c ∈ m := by
  induction m with
  | nil => simp [Memory.insertCell]
  | cons head rest ih =>
    unfold Memory.insertCell
    split
    · simp
    · simp only [List.mem_cons, ih]; tauto

theorem Memory.pairwise_insertCell (m : Memory) (cell : Host.Cell) (h : m.Pairwise (fun a b => a.1 < b.1))
    (hne : ∀ c ∈ m, c.1 ≠ cell.1) : (Memory.insertCell m cell).Pairwise (fun a b => a.1 < b.1) := by
  induction m with
  | nil => simp [Memory.insertCell]
  | cons head rest ih =>
    rw [List.pairwise_cons] at h
    unfold Memory.insertCell
    split
    · rename_i hlt
      refine List.pairwise_cons.mpr ⟨?_, List.pairwise_cons.mpr h⟩
      intro c hc
      rcases List.mem_cons.mp hc with rfl | hc
      · exact hlt
      · exact hlt.trans (h.1 c hc)
    · rename_i hge
      refine List.pairwise_cons.mpr ⟨?_, ih h.2 (fun c hc => hne c (by simp [hc]))⟩
      intro c hc
      rcases (Memory.mem_insertCell rest cell c).mp hc with rfl | hc
      · have := hne head (by simp); omega
      · exact h.1 c hc

/-- A write keeps the canonical form. -/
theorem Memory.wf_write (m : Memory) (a : Addr) (v : Byte) (h : Memory.wf m = true) :
    Memory.wf (Memory.write m a v) = true := by
  rw [Memory.wf_iff] at h ⊢
  have hp := h.1.sublist (List.filter_sublist (p := fun cell => cell.1 != a.toNat))
  have hall : ∀ c ∈ List.filter (fun cell => cell.1 != a.toNat) m,
      c.1 < 4096 ∧ c.2 ≠ Memory.background c.1 := fun c hc => h.2 c (List.mem_filter.mp hc).1
  unfold Memory.write
  by_cases hv : v = Memory.background a.toNat
  · simp only [if_pos hv]
    exact ⟨hp, hall⟩
  · simp only [if_neg hv]
    refine ⟨Memory.pairwise_insertCell _ _ hp (Memory.filter_ne m _), ?_⟩
    intro c hc
    rcases (Memory.mem_insertCell _ _ _).mp hc with rfl | hc
    · exact ⟨a.isLt, hv⟩
    · exact hall c hc

/-- Writes keep the canonical form. -/
theorem Memory.wf_writeAll (m : Memory) (cells : List (Addr × Byte)) (h : Memory.wf m = true) :
    Memory.wf (Memory.writeAll m cells) = true := by
  induction cells generalizing m with
  | nil => exact h
  | cons c cs ih => exact ih _ (Memory.wf_write m c.1 c.2 h)

theorem Memory.wf_nil : Memory.wf [] = true := rfl

theorem Memory.readAt_of_mem_rising (m : Memory) (h : m.Pairwise (fun a b => a.1 < b.1)) (c : Host.Cell) (hc : c ∈ m) :
    Memory.readAt m c.1 = c.2 := by
  induction m with
  | nil => simp at hc
  | cons head rest ih =>
    rw [List.pairwise_cons] at h
    rcases List.mem_cons.mp hc with rfl | hc
    · simp [Memory.readAt]
    · have : head.1 ≠ c.1 := (h.1 c hc).ne
      simp [Memory.readAt, this, ih h.2 hc]

/-- A canonical memory lists exactly the addresses that do not read as unlisted. -/
theorem Memory.mem_iff_of_wf (m : Memory) (h : Memory.wf m = true) (c : Host.Cell) :
    c ∈ m ↔ Memory.readAt m c.1 = c.2 ∧ c.2 ≠ Memory.background c.1 := by
  rw [Memory.wf_iff] at h
  constructor
  · intro hc
    exact ⟨Memory.readAt_of_mem_rising m h.1 c hc, (h.2 c hc).2⟩
  · rintro ⟨hr, hb⟩
    by_contra hc
    by_cases hex : ∃ d ∈ m, d.1 = c.1
    · obtain ⟨d, hd, hdc⟩ := hex
      have hrd := Memory.readAt_of_mem_rising m h.1 d hd
      rw [hdc, hr] at hrd
      exact hc (by rwa [show c = d from Prod.ext hdc.symm hrd])
    · push Not at hex
      rw [Memory.readAt_of_forall_ne m c.1 hex] at hr
      exact hb hr.symm

theorem Memory.eq_of_rising_of_mem_iff (m n : Memory) (hm : m.Pairwise (fun a b => a.1 < b.1))
    (hn : n.Pairwise (fun a b => a.1 < b.1)) (h : ∀ c, c ∈ m ↔ c ∈ n) : m = n := by
  have nd : ∀ l : Memory, l.Pairwise (fun a b => a.1 < b.1) → l.Nodup := fun l hl =>
    hl.imp (fun hab e => by rw [e] at hab; exact lt_irrefl _ hab)
  refine List.Perm.eq_of_pairwise (le := fun a b => a.1 < b.1) ?_ hm hn
    ((List.perm_ext_iff_of_nodup (nd m hm) (nd n hn)).mpr h)
  intro a b _ _ hab hba
  exact absurd (hab.trans hba) (lt_irrefl _)

/-- A listed address of a canonical memory is a 12-bit address. -/
theorem Memory.lt_of_mem_of_wf (m : Memory) (h : Memory.wf m = true) (c : Host.Cell) (hc : c ∈ m) : c.1 < 4096 :=
  ((Memory.wf_iff m).mp h).2 c hc |>.1

end Sys2Proof.Machine
end

