-- ==== Sys2Proof/Laws/Ops.lean ====
section
/-! SUPPORT. What each shared operation can do, said once: push and pop, stores, block loads, effective addresses, skips,
and the step itself. -/

namespace Sys2Proof.Machine

open Host (Outcome)

/-! ## Stack -/

theorem State.push_of_lt (s : State) (ret : Word) (h : s.sp.val < 16) :
    s.push ret = some { s with stack := s.stack.set s.sp.val ret h, sp := ⟨s.sp.val + 1, by omega⟩ } := by
  simp [State.push, h]

theorem State.push_of_full (s : State) (ret : Word) (h : s.sp.val = 16) : s.push ret = none := by
  simp [State.push, h]

theorem State.pop_of_pos (s : State) (h : 0 < s.sp.val) :
    s.pop = some (s.stack[s.sp.val - 1]'(by omega), { s with sp := ⟨s.sp.val - 1, by omega⟩ }) := by
  simp [State.pop, h]

theorem State.pop_of_empty (s : State) (h : s.sp.val = 0) : s.pop = none := by
  simp [State.pop, h]

/-! ## Registers written in a row -/

@[simp] theorem State.writeRegs_nil (s : State) : s.writeRegs [] = s := rfl

@[simp] theorem State.writeRegs_cons (s : State) (c : RegIdx × Byte) (cs : List (RegIdx × Byte)) :
    s.writeRegs (c :: cs) = (s.writeReg c.1 c.2).writeRegs cs := rfl

/-- Register writes touch nothing but the register file. -/
theorem State.writeRegs_eq (s : State) (cells : List (RegIdx × Byte)) :
    s.writeRegs cells = { s with regs := (s.writeRegs cells).regs } := by
  induction cells generalizing s with
  | nil => rfl
  | cons c cs ih => rw [State.writeRegs_cons, ih]; rfl

theorem State.readReg_writeRegs_of_notMem (s : State) (cells : List (RegIdx × Byte)) (r : RegIdx)
    (h : r ∉ cells.map Prod.fst) : (s.writeRegs cells).readReg r = s.readReg r := by
  induction cells generalizing s with
  | nil => rfl
  | cons c cs ih =>
    simp only [List.map_cons, List.mem_cons, not_or] at h
    rw [State.writeRegs_cons, ih _ h.2, State.readReg_writeReg, if_neg h.1]

theorem State.readReg_writeRegs_of_mem (s : State) (cells : List (RegIdx × Byte)) (r : RegIdx) (v : Byte)
    (nodup : (cells.map Prod.fst).Nodup) (h : (r, v) ∈ cells) : (s.writeRegs cells).readReg r = v := by
  induction cells generalizing s with
  | nil => simp at h
  | cons c cs ih =>
    simp only [List.map_cons, List.nodup_cons] at nodup
    rw [State.writeRegs_cons]
    rcases List.mem_cons.mp h with rfl | h
    · rw [State.readReg_writeRegs_of_notMem _ _ _ nodup.1]; simp
    · exact ih _ nodup.2 h

/-! ## Register blocks and effective addresses -/

theorem mem_blockRegs (x r : RegIdx) : r ∈ blockRegs x ↔ r.toNat ≤ x.toNat := by
  simp only [blockRegs, List.mem_map, List.mem_range]
  constructor
  · rintro ⟨k, hk, rfl⟩
    have := x.isLt
    simp only [BitVec.toNat_ofNat]
    omega
  · intro h
    refine ⟨r.toNat, by omega, ?_⟩
    apply BitVec.eq_of_toNat_eq
    simp

theorem blockRegs_nodup (x : RegIdx) : (blockRegs x).Nodup := by
  refine List.Nodup.map_on ?_ List.nodup_range
  intro a ha b hb hab
  have hx := x.isLt
  have ha' := List.mem_range.mp ha
  have hb' := List.mem_range.mp hb
  have := congrArg BitVec.toNat hab
  simp only [BitVec.toNat_ofNat] at this
  omega

@[simp] theorem State.ea_toNat (s : State) (k : Nat) : (s.ea k).toNat = (s.I.toNat + k) % 4096 := by
  simp [State.ea]

/-- Up to 4096 consecutive effective addresses are different. -/
theorem State.ea_inj (s : State) (j k : Nat) (hj : j < 4096) (hk : k < 4096) : s.ea j = s.ea k ↔ j = k := by
  constructor
  · intro h
    have := congrArg BitVec.toNat h
    simp only [State.ea_toNat] at this
    omega
  · rintro rfl; rfl

theorem State.ea_of_I {s t : State} (h : t.I = s.I) (k : Nat) : t.ea k = s.ea k := by simp [State.ea, h]

@[simp] theorem State.blockCells_fst (s : State) (x : RegIdx) :
    (s.blockCells x).map Prod.fst = (blockRegs x).map (fun r => s.ea r.toNat) := by
  simp [State.blockCells, Function.comp_def]

@[simp] theorem State.blockLoads_fst (s : State) (x : RegIdx) : (s.blockLoads x).map Prod.fst = blockRegs x := by
  simp [State.blockLoads, Function.comp_def]

theorem State.blockCells_nodup (s : State) (x : RegIdx) : ((s.blockCells x).map Prod.fst).Nodup := by
  rw [State.blockCells_fst]
  refine List.Nodup.map_on ?_ (blockRegs_nodup x)
  intro a _ b _ hab
  have ha := a.isLt
  have hb := b.isLt
  exact BitVec.eq_of_toNat_eq ((s.ea_inj _ _ (by omega) (by omega)).mp hab)

theorem State.bcdCells_eq (s : State) (v : Byte) : s.bcdCells v =
    [(s.ea 0, BitVec.ofNat 8 (v.toNat / 100)), (s.ea 1, BitVec.ofNat 8 (v.toNat / 10 % 10)),
      (s.ea 2, BitVec.ofNat 8 (v.toNat % 10))] := rfl

theorem State.bcdCells_nodup (s : State) (v : Byte) : ((s.bcdCells v).map Prod.fst).Nodup := by
  simp [State.bcdCells_eq, State.ea_inj]

/-! ## Stores -/

theorem protectedAddr_iff (a : Addr) : protectedAddr a = true ↔ a.toNat ≤ 0x1FF := by
  rw [protectedAddr, decide_eq_true_eq, Config.progBase]
  omega

/-- A store with no protected target writes every cell and advances. -/
theorem State.storeCells_of_allowed (s : State) (cells : List (Addr × Byte))
    (h : ∀ c ∈ cells, 0x1FF < c.1.toNat) :
    s.storeCells cells = { s with mem := Memory.writeAll s.mem cells }.advance := by
  have : cells.find? (fun cell => protectedAddr cell.1) = none := by
    rw [List.find?_eq_none]
    intro c hc hp
    have := h c hc
    have := (protectedAddr_iff c.1).mp hp
    omega
  simp [State.storeCells, this]

/-- What a store can do: raise at its first protected target, or write every cell and advance. -/
theorem State.storeCells_cases (s : State) (cells : List (Addr × Byte)) :
    (∃ before c after, cells = before ++ c :: after ∧ (∀ d ∈ before, 0x1FF < d.1.toNat) ∧ c.1.toNat ≤ 0x1FF ∧
      s.storeCells cells = s.raise .protectedWrite (c.1.setWidth 16)) ∨
    ((∀ c ∈ cells, 0x1FF < c.1.toNat) ∧
      s.storeCells cells = { s with mem := Memory.writeAll s.mem cells }.advance) := by
  rcases hf : cells.find? (fun cell => protectedAddr cell.1) with _ | c
  · right
    have hall : ∀ c ∈ cells, 0x1FF < c.1.toNat := by
      intro c hc
      have := List.find?_eq_none.mp hf c hc
      rw [protectedAddr_iff] at this
      omega
    exact ⟨hall, s.storeCells_of_allowed cells hall⟩
  · left
    obtain ⟨hp, before, after, he, hb⟩ := List.find?_eq_some_iff_append.mp hf
    refine ⟨before, c, after, he, ?_, (protectedAddr_iff c.1).mp hp, by simp [State.storeCells, hf]⟩
    intro d hd
    have := hb d hd
    have h2 := protectedAddr_iff d.1
    rcases hpd : protectedAddr d.1
    · rw [hpd] at h2; simp at h2; omega
    · simp [hpd] at this

/-- The cells of LD B lie at `EA(0)`, `EA(1)`, `EA(2)`. -/
theorem State.bcdCells_fst (s : State) (v : Byte) : (s.bcdCells v).map Prod.fst = (List.range 3).map s.ea := rfl

/-- The cells of LD [I],Vx lie at `EA(0)` to `EA(X)`. -/
theorem State.blockCells_fst_range (s : State) (x : RegIdx) :
    (s.blockCells x).map Prod.fst = (List.range (x.toNat + 1)).map s.ea := by
  rw [State.blockCells_fst, blockRegs, List.map_map]
  refine List.map_congr_left fun a ha => ?_
  have := x.isLt
  have := List.mem_range.mp ha
  simp only [Function.comp_apply, BitVec.toNat_ofNat]
  rw [Nat.mod_eq_of_lt (by omega)]

/-- A store to `EA(0)` up to `EA(n - 1)` whose lowest protected target is `EA(k)` raises with that address. -/
theorem State.storeCells_of_protected (s : State) (cells : List (Addr × Byte)) (n k : Nat)
    (at_ : cells.map Prod.fst = (List.range n).map s.ea) (hk : k < n) (hp : (s.ea k).toNat ≤ 0x1FF)
    (hb : ∀ j, j < k → 0x1FF < (s.ea j).toNat) :
    s.storeCells cells = s.raise .protectedWrite ((s.ea k).setWidth 16) := by
  have hlen : cells.length = n := by simpa using congrArg List.length at_
  have hget : ∀ (j : Nat) (h : j < cells.length), cells[j].1 = s.ea j := by
    intro j h
    have e : (cells.map Prod.fst)[j]? = ((List.range n).map s.ea)[j]? := by rw [at_]
    simpa [h, show j < n by omega] using e
  rcases s.storeCells_cases cells with ⟨before, c, after, he, hbefore, hc, hs⟩ | ⟨hall, hs⟩
  · have hlt : before.length < cells.length := by simp [he]
    have hcv : c.1 = s.ea before.length := by
      rw [← hget _ hlt]; simp [he]
    have hlow : before.length = k := by
      rcases Nat.lt_trichotomy before.length k with h | h | h
      · have := hb _ h; rw [← hcv] at this; omega
      · exact h
      · have h1 := hbefore _ (List.getElem_mem h)
        have h2 := hget k (by omega)
        have h3 : cells[k]'(by omega) = before[k] := by simp [he, h]
        rw [← h3, h2] at h1; omega
    rw [hs, hcv, hlow]
  · have := hall _ (List.getElem_mem (show k < cells.length by omega))
    rw [hget] at this; omega

/-! ## Fetch and step -/

theorem State.fetchInRange_iff (s : State) : s.fetchInRange = true ↔ 0x200 ≤ s.pc.toNat ∧ s.pc.toNat ≤ 0xFFE := by
  rw [State.fetchInRange, decide_eq_true_eq, Config.progBase, Config.lastFetch]

/-- The fetched word as the two bytes at `pc` and `pc + 1`. -/
theorem State.fetchWord_eq (s : State) :
    s.fetchWord = s.readByte (BitVec.ofNat 12 s.pc.toNat) ++ s.readByte (BitVec.ofNat 12 (s.pc.toNat + 1)) := by
  have h1 : s.fetchAddr = BitVec.ofNat 12 s.pc.toNat := by
    apply BitVec.eq_of_toNat_eq; simp [State.fetchAddr]
  have h2 : s.fetchAddr + 1#12 = BitVec.ofNat 12 (s.pc.toNat + 1) := by
    apply BitVec.eq_of_toNat_eq; rw [h1]; simp
  rw [State.fetchWord, State.readWord, wordOfBytes, h2, h1]

theorem State.fetchWord_eq_wordAtPc (s : State) : s.fetchWord = wordAtPc s := s.fetchWord_eq

theorem State.fetchInRange_of_fetchable {s : State} (h : PcFetchable s) : s.fetchInRange = true :=
  s.fetchInRange_iff.mpr h

theorem step_of_awaitingKey (s : State) (h : s.run = .awaitingKey) : step s = .next s := by simp [step, stepBy, h]

theorem step_of_faulted (s : State) (h : s.run = .faulted) : step s = .next s := by simp [step, stepBy, h]

theorem step_of_outOfRange (s : State) (h : s.run = .running) (hr : s.fetchInRange = false) :
    step s = .next (s.raise .fetchOutOfRange s.pc) := by simp [step, stepBy, h, hr]

theorem step_of_decoded (s : State) (i : Instr) (h : s.run = .running) (hr : s.fetchInRange = true)
    (hd : decodeWord s.fetchWord = .ok i) : step s = exec i s := by simp [step, stepBy, h, hr, hd]

theorem step_of_miss (s : State) (e : DecodeReject) (h : s.run = .running) (hr : s.fetchInRange = true)
    (hd : decodeWord s.fetchWord = .error e) : step s = .next s.advance := by simp [step, stepBy, h, hr, hd, execMiss]

/-- What a step can do. -/
theorem step_cases {s t : State} (h : step s = .next t) :
    (s.run ≠ .running ∧ t = s) ∨
    (s.run = .running ∧ s.fetchInRange = false ∧ t = s.raise .fetchOutOfRange s.pc) ∨
    (s.run = .running ∧ s.fetchInRange = true ∧ (∃ e, decodeWord s.fetchWord = .error e) ∧ t = s.advance) ∨
    (s.run = .running ∧ s.fetchInRange = true ∧ ∃ i, decodeWord s.fetchWord = .ok i ∧ exec i s = .next t) := by
  rcases hrun : s.run with _ | _ | _
  · rcases hr : s.fetchInRange
    · rw [step_of_outOfRange s hrun hr] at h
      exact .inr (.inl ⟨rfl, rfl, by simpa using h.symm⟩)
    · rcases hd : decodeWord s.fetchWord with e | i
      · rw [step_of_miss s e hrun hr hd] at h
        exact .inr (.inr (.inl ⟨rfl, rfl, ⟨e, rfl⟩, by simpa using h.symm⟩))
      · rw [step_of_decoded s i hrun hr hd] at h
        exact .inr (.inr (.inr ⟨rfl, rfl, i, rfl, h⟩))
  · rw [step_of_awaitingKey s hrun] at h
    exact .inl ⟨by simp, by simpa using h.symm⟩
  · rw [step_of_faulted s hrun] at h
    exact .inl ⟨by simp, by simpa using h.symm⟩

/-! ## Each arm of exec as its next state -/

section
variable (s : State) (x y : RegIdx) (nn : Byte) (nnn : Addr) (n : BitVec 4)

theorem exec_sys : exec (.sys nnn) s = .next s.advance := rfl
theorem exec_cls : exec .cls s = .next { s with fb := Framebuffer.blank }.advance := rfl
theorem exec_jp : exec (.jp nnn) s = .next (s.setPc (zextAddr nnn)) := rfl
theorem exec_seVxNN : exec (.seVxNN x nn) s = .next (s.skipIf (s.readReg x == nn)) := rfl
theorem exec_sneVxNN : exec (.sneVxNN x nn) s = .next (s.skipIf (s.readReg x != nn)) := rfl
theorem exec_seVxVy : exec (.seVxVy x y) s = .next (s.skipIf (s.readReg x == s.readReg y)) := rfl
theorem exec_sneVxVy : exec (.sneVxVy x y) s = .next (s.skipIf (s.readReg x != s.readReg y)) := rfl
theorem exec_ldVxNN : exec (.ldVxNN x nn) s = .next (s.writeReg x nn).advance := rfl
theorem exec_addVxNN : exec (.addVxNN x nn) s = .next (s.writeReg x (s.readReg x + nn)).advance := rfl
theorem exec_ldVxVy : exec (.ldVxVy x y) s = .next (s.writeReg x (s.readReg y)).advance := rfl
theorem exec_orVxVy : exec (.orVxVy x y) s = .next (s.writeReg x (s.readReg x ||| s.readReg y)).advance := rfl
theorem exec_andVxVy : exec (.andVxVy x y) s = .next (s.writeReg x (s.readReg x &&& s.readReg y)).advance := rfl
theorem exec_xorVxVy : exec (.xorVxVy x y) s = .next (s.writeReg x (s.readReg x ^^^ s.readReg y)).advance := rfl
theorem exec_addVxVy : exec (.addVxVy x y) s = .next
    (s.writeResultThenFlag x (s.readReg x + s.readReg y) (addCarry (s.readReg x) (s.readReg y))).advance := rfl
theorem exec_subVxVy : exec (.subVxVy x y) s = .next
    (s.writeResultThenFlag x (s.readReg x - s.readReg y) (noBorrow (s.readReg x) (s.readReg y))).advance := rfl
theorem exec_shrVx : exec (.shrVx x y) s = .next
    (s.writeResultThenFlag x (s.readReg x >>> 1) (shrOut (s.readReg x))).advance := rfl
theorem exec_subnVxVy : exec (.subnVxVy x y) s = .next
    (s.writeResultThenFlag x (s.readReg y - s.readReg x) (noBorrow (s.readReg y) (s.readReg x))).advance := rfl
theorem exec_shlVx : exec (.shlVx x y) s = .next
    (s.writeResultThenFlag x (s.readReg x <<< 1) (shlOut (s.readReg x))).advance := rfl
theorem exec_ldINNN : exec (.ldINNN nnn) s = .next (s.setI (zextAddr nnn)).advance := rfl
theorem exec_jpV0NNN : exec (.jpV0NNN nnn) s = .next
    (s.setPc (zextAddr nnn + zextByte (s.readReg 0x0#4))) := rfl
theorem exec_rndVxNN : exec (.rndVxNN x nn) s = .next (s.rndWith x nn (Config.randomByte s.draws)) := rfl
theorem exec_drwVxVyN : exec (.drwVxVyN x y n) s = .next
    ({ s with fb := (drawPixels s.fb (s.spritePixels (s.readReg x) (s.readReg y) n)).1 }.writeReg flagReg
      (flagByte (drawPixels s.fb (s.spritePixels (s.readReg x) (s.readReg y) n)).2)).advance := rfl
theorem exec_skpVx : exec (.skpVx x) s = .next (s.skipIf (s.keyPressed (s.readReg x))) := rfl
theorem exec_sknpVx : exec (.sknpVx x) s = .next (s.skipIf (!s.keyPressed (s.readReg x))) := rfl
theorem exec_ldVxDT : exec (.ldVxDT x) s = .next (s.writeReg x s.dt).advance := rfl
theorem exec_ldVxK : exec (.ldVxK x) s = .next { s with kx := x, run := .awaitingKey }.advance := rfl
theorem exec_ldDTVx : exec (.ldDTVx x) s = .next { s with dt := s.readReg x }.advance := rfl
theorem exec_ldSTVx : exec (.ldSTVx x) s = .next { s with st := s.readReg x }.advance := rfl
theorem exec_addIVx : exec (.addIVx x) s = .next (s.setI (s.I + zextByte (s.readReg x))).advance := rfl
theorem exec_ldFVx : exec (.ldFVx x) s = .next (s.setI (glyphAddr (s.readReg x))).advance := rfl
theorem exec_ldBVx : exec (.ldBVx x) s = .next (s.storeCells (s.bcdCells (s.readReg x))) := rfl
theorem exec_ldMemVx : exec (.ldMemVx x) s = .next (s.storeCells (s.blockCells x)) := rfl
theorem exec_ldVxMem : exec (.ldVxMem x) s = .next (s.writeRegs (s.blockLoads x)).advance := rfl

theorem exec_ret_of_pos (h : 0 < s.sp.val) : exec .ret s = .next
    { s with pc := s.stack[s.sp.val - 1]'(by omega), sp := ⟨s.sp.val - 1, by omega⟩ } := by
  simp [exec, execRet, State.pop_of_pos s h, State.setPc]

theorem exec_ret_of_empty (h : s.sp.val = 0) : exec .ret s = .next (s.raise .stackUnderflow 0x0000#16) := by
  simp [exec, execRet, State.pop_of_empty s h]

theorem exec_call_of_lt (h : s.sp.val < 16) : exec (.call nnn) s = .next
    { s with pc := zextAddr nnn, stack := s.stack.set s.sp.val (s.pc + 2#16) h,
             sp := ⟨s.sp.val + 1, by omega⟩ } := by
  simp [exec, execCall, State.push_of_lt s _ h, State.setPc]

theorem exec_call_of_full (h : s.sp.val = 16) : exec (.call nnn) s = .next
    (s.raise .stackOverflow (zextAddr nnn)) := by
  simp [exec, execCall, State.push_of_full s _ h]

end

/-- Every instruction answers a next state: no meaning faults or refuses. -/
theorem exec_total (i : Instr) (s : State) : ∃ t, exec i s = .next t := by
  cases i with
  | ret =>
    rcases Nat.eq_zero_or_pos s.sp.val with h | h
    · exact ⟨_, exec_ret_of_empty s h⟩
    · exact ⟨_, exec_ret_of_pos s h⟩
  | call nnn =>
    rcases Nat.lt_or_ge s.sp.val 16 with h | h
    · exact ⟨_, exec_call_of_lt s nnn h⟩
    · exact ⟨_, exec_call_of_full s nnn (by omega)⟩
  | _ => exact ⟨_, rfl⟩

/-! ## A word placed where the step fetches -/

theorem State.withFetchWord_run (s : State) (nbits w : Nat) : (s.withFetchWord nbits w).run = .running := rfl

theorem State.withFetchWord_fetchInRange (s : State) (nbits w : Nat) :
    (s.withFetchWord nbits w).fetchInRange = true := by
  rcases h : s.fetchInRange
  · have hpc : (s.withFetchWord nbits w).pc = 0x0200#16 := by simp [State.withFetchWord, h, Config.progBase]
    rw [State.fetchInRange_iff, hpc]
    decide
  · have hpc : (s.withFetchWord nbits w).pc = s.pc := by simp [State.withFetchWord, h]
    rw [State.fetchInRange_iff] at h ⊢
    rwa [hpc]

theorem State.withFetchWord_fetchWord (s : State) (nbits w : Nat) :
    (s.withFetchWord nbits w).fetchWord = tableWord nbits w := by
  have other : ∀ a : Addr, a ≠ a + 1#12 := fun a e => by
    have := congrArg BitVec.toNat e
    simp only [BitVec.toNat_add, BitVec.toNat_ofNat] at this
    omega
  obtain ⟨m, hm⟩ : ∃ m, (s.withFetchWord nbits w).mem = Memory.writeAll m
      [((s.withFetchWord nbits w).fetchAddr, firstByte (tableWord nbits w)),
        ((s.withFetchWord nbits w).fetchAddr + 1#12, secondByte (tableWord nbits w))] := ⟨s.mem, rfl⟩
  simp only [State.fetchWord, State.readWord, State.readByte, hm, Memory.writeAll_cons, Memory.writeAll_nil,
    Memory.read_write]
  rw [if_neg (other _), if_pos trivial, if_pos trivial]
  exact wordOfBytes_bytes _

/-- The step after `withFetchWord` runs exactly the instruction that `decodeTableWord` names. -/
theorem step_withFetchWord (s : State) (nbits w : Nat) (i : Instr) (h : decodeTableWord nbits w = some i) :
    step (s.withFetchWord nbits w) = exec i (s.withFetchWord nbits w) := by
  refine step_of_decoded _ i rfl (s.withFetchWord_fetchInRange nbits w) ?_
  rw [State.withFetchWord_fetchWord]
  simp only [decodeTableWord, decodeBytes, wordOfBytes_bytes] at h
  rcases hd : decodeWord (tableWord nbits w) with e | j <;> simp_all

end Sys2Proof.Machine
end

