-- ==== Sys2Proof/Laws/Display.lean ====
section
/-! SUPPORT. The framebuffer: a pixel after a toggle, and the sprite loop of R181 as a set of pixels, each visited once. -/

namespace Sys2Proof.Machine

@[simp] theorem Framebuffer.pixel_blank (row : Fin 32) (col : Fin 64) : Framebuffer.blank.pixel row col = false := by
  simp [Framebuffer.pixel, Framebuffer.blank]

@[simp] theorem Framebuffer.pixel_toggle (fb : Framebuffer) (row r : Fin 32) (col c : Fin 64) :
    (fb.toggle row col).pixel r c = if r = row ∧ c = col then !fb.pixel row col else fb.pixel r c := by
  by_cases hr : r = row
  · subst hr
    by_cases hc : c = col
    · subst hc; simp [Framebuffer.pixel, Framebuffer.toggle]
    · have hc' : col.val ≠ c.val := fun e => hc (Fin.ext e.symm)
      simp [Framebuffer.pixel, Framebuffer.toggle, hc, hc']
  · have hr' : row.val ≠ r.val := fun e => hr (Fin.ext e.symm)
    simp [Framebuffer.pixel, Framebuffer.toggle, hr, hr']

/-- Framebuffers with the same pixels are equal. -/
theorem Framebuffer.ext_pixel {f g : Framebuffer} (h : ∀ row col, f.pixel row col = g.pixel row col) : f = g := by
  apply Vector.ext
  intro i hi
  apply Vector.ext
  intro j hj
  exact h ⟨i, hi⟩ ⟨j, hj⟩

/-! ## Drawing a list of different pixels -/

theorem foldl_drawPixel (ps : List (Fin 32 × Fin 64)) (nodup : ps.Nodup) (acc : Framebuffer × Bool) :
    (∀ row col, (ps.foldl drawPixel acc).1.pixel row col = (acc.1.pixel row col ^^ decide ((row, col) ∈ ps))) ∧
    ((ps.foldl drawPixel acc).2 = (acc.2 || ps.any (fun p => acc.1.pixel p.1 p.2))) := by
  induction ps generalizing acc with
  | nil => simp
  | cons p ps ih =>
    rw [List.nodup_cons] at nodup
    obtain ⟨ihp, ihc⟩ := ih nodup.2 (drawPixel acc p)
    constructor
    · intro row col
      rw [List.foldl_cons, ihp]
      by_cases hp : (row, col) = p
      · subst hp; simp [drawPixel, nodup.1]
      · have hp' : ¬ (row = p.1 ∧ col = p.2) := fun h => hp (Prod.ext h.1 h.2)
        simp [drawPixel, hp', hp]
    · rw [List.foldl_cons, ihc]
      have hany : (ps.any fun q => (drawPixel acc p).1.pixel q.1 q.2) = ps.any fun q => acc.1.pixel q.1 q.2 := by
        rw [Bool.eq_iff_iff, List.any_eq_true, List.any_eq_true]
        refine exists_congr fun q => and_congr_right fun hq => ?_
        have hne : ¬ (q.1 = p.1 ∧ q.2 = p.2) := fun h => nodup.1 (by rwa [← Prod.ext h.1 h.2])
        simp [drawPixel, hne]
      rw [hany]
      simp [drawPixel, Bool.or_assoc]

/-- Each pixel of the list is inverted, every other pixel is as before. -/
theorem pixel_drawPixels (fb : Framebuffer) (ps : List (Fin 32 × Fin 64)) (nodup : ps.Nodup) (row : Fin 32)
    (col : Fin 64) : (drawPixels fb ps).1.pixel row col = (fb.pixel row col ^^ decide ((row, col) ∈ ps)) :=
  (foldl_drawPixel ps nodup (fb, false)).1 row col

/-- There is a collision exactly when some pixel of the list was lit before. -/
theorem collision_drawPixels (fb : Framebuffer) (ps : List (Fin 32 × Fin 64)) (nodup : ps.Nodup) :
    (drawPixels fb ps).2 = ps.any (fun p => fb.pixel p.1 p.2) := by
  have h := (foldl_drawPixel ps nodup (fb, false)).2
  rwa [Bool.false_or] at h

/-! ## The pixels of a sprite -/

theorem spriteRow_inj (vy : Byte) (r r' : Nat) (h : r < 32) (h' : r' < 32) :
    spriteRow vy r = spriteRow vy r' ↔ r = r' := by
  constructor
  · intro e
    have := congrArg Fin.val e
    simp only [spriteRow, Fin.val_ofNat] at this
    omega
  · rintro rfl; rfl

theorem spriteCol_inj (vx : Byte) (j j' : Nat) (h : j < 64) (h' : j' < 64) :
    spriteCol vx j = spriteCol vx j' ↔ j = j' := by
  constructor
  · intro e
    have := congrArg Fin.val e
    simp only [spriteCol, Fin.val_ofNat] at this
    omega
  · rintro rfl; rfl

theorem State.mem_spriteRowPixels (s : State) (vx vy : Byte) (r : Nat) (p : Fin 32 × Fin 64) :
    p ∈ s.spriteRowPixels vx vy r ↔
      ∃ j, j < 8 ∧ s.spriteBit r j = true ∧ p = (spriteRow vy r, spriteCol vx j) := by
  simp only [State.spriteRowPixels, List.mem_map, List.mem_filter, List.mem_range]
  constructor
  · rintro ⟨j, ⟨hj, hb⟩, rfl⟩; exact ⟨j, hj, hb, rfl⟩
  · rintro ⟨j, hj, hb, rfl⟩; exact ⟨j, ⟨hj, hb⟩, rfl⟩

/-- A pixel is in the sprite when it is the place of a set bit of one of its rows. -/
theorem State.mem_spritePixels (s : State) (vx vy : Byte) (n : BitVec 4) (p : Fin 32 × Fin 64) :
    p ∈ s.spritePixels vx vy n ↔
      ∃ r j, r < n.toNat ∧ j < 8 ∧ s.spriteBit r j = true ∧ p = (spriteRow vy r, spriteCol vx j) := by
  simp only [State.spritePixels, List.mem_flatMap, List.mem_range, State.mem_spriteRowPixels]
  constructor
  · rintro ⟨r, hr, j, hj, hb, hp⟩; exact ⟨r, j, hr, hj, hb, hp⟩
  · rintro ⟨r, j, hr, hj, hb, hp⟩; exact ⟨r, hr, j, hj, hb, hp⟩

theorem State.spriteRowPixels_nodup (s : State) (vx vy : Byte) (r : Nat) : (s.spriteRowPixels vx vy r).Nodup := by
  refine List.Nodup.map_on ?_ (List.nodup_range.filter _)
  intro j hj j' hj' h
  have hj := List.mem_range.mp (List.mem_filter.mp hj).1
  have hj' := List.mem_range.mp (List.mem_filter.mp hj').1
  exact (spriteCol_inj vx j j' (by omega) (by omega)).mp (congrArg Prod.snd h)

/-- R181 corner case 4: within one DRW no pixel is visited twice. -/
theorem State.spritePixels_nodup (s : State) (vx vy : Byte) (n : BitVec 4) : (s.spritePixels vx vy n).Nodup := by
  rw [State.spritePixels, List.nodup_flatMap]
  refine ⟨fun r _ => s.spriteRowPixels_nodup vx vy r, ?_⟩
  refine List.Pairwise.imp_of_mem ?_ (List.nodup_range (n := n.toNat))
  intro r r' hr hr' hne p hp hp'
  have hn := n.isLt
  have hr := List.mem_range.mp hr
  have hr' := List.mem_range.mp hr'
  obtain ⟨_, _, _, rfl⟩ := (s.mem_spriteRowPixels vx vy r p).mp hp
  obtain ⟨_, _, _, he⟩ := (s.mem_spriteRowPixels vx vy r' _).mp hp'
  exact hne ((spriteRow_inj vy r r' (by omega) (by omega)).mp (congrArg Prod.fst he))

/-- The pixels depend on memory and `I` alone. -/
theorem State.spritePixels_congr {s t : State} (hI : t.I = s.I) (hm : ∀ a, t.readByte a = s.readByte a) (vx vy : Byte)
    (n : BitVec 4) : t.spritePixels vx vy n = s.spritePixels vx vy n := by
  have hbit : ∀ r j, t.spriteBit r j = s.spriteBit r j := fun r j => by
    simp [State.spriteBit, hm, State.ea_of_I hI]
  simp [State.spritePixels, State.spriteRowPixels, hbit]

end Sys2Proof.Machine
end

