-- ==== Sys2Proof/Laws/Host.lean ====
section
/-! SUPPORT. Runs over schedules, their observation, and the draw as an input: what each definition does, said once. -/

namespace Sys2Proof.Machine

open Host (Outcome)

/-! ## The draw as an input (R151, R200) -/

/-- Only RND takes the draw. -/
theorem execWithDraw_of_ne (r : Byte) (i : Instr) (s : State) (h : ∀ x nn, i ≠ .rndVxNN x nn) :
    execWithDraw r i s = exec i s := by
  cases i with
  | rndVxNN x nn => exact absurd rfl (h x nn)
  | _ => rfl

theorem execWithDraw_rnd (r : Byte) (x : RegIdx) (nn : Byte) (s : State) :
    execWithDraw r (.rndVxNN x nn) s = .next (s.rndWith x nn r) := rfl

/-- `exec` is the free value given to `execWithDraw`. -/
theorem exec_eq_execWithDraw (i : Instr) (s : State) : exec i s = execWithDraw (Config.randomByte s.draws) i s := by
  cases i <;> rfl

/-- A step looks at its way to execute at one instruction and this state only. -/
theorem stepBy_congr (f g : Instr → State → Outcome State Fault Refusal) (s : State)
    (h : ∀ i, AboutToExecute s i → f i s = g i s) : stepBy f s = stepBy g s := by
  unfold stepBy
  rcases hrun : s.run with _ | _ | _
  · rcases hr : s.fetchInRange
    · rfl
    · rcases hd : decodeWord s.fetchWord with e | i
      · rfl
      · exact h i ⟨hrun, s.fetchInRange_iff.mp hr, by rw [← State.fetchWord_eq_wordAtPc]; exact hd⟩
  · rfl
  · rfl

theorem step_eq_stepWithDraw (s : State) : step s = stepWithDraw (Config.randomByte s.draws) s :=
  stepBy_congr _ _ s fun i _ => exec_eq_execWithDraw i s

@[simp] theorem coreOutcome_next (t : State) : coreOutcome (.next t) = .next t.toCoreState := rfl

@[simp] theorem CoreState.toCoreState_withSource (c : CoreState) : c.withSource.toCoreState = c := rfl

/-- A store changes the core in the same way whatever the source has given. -/
theorem State.storeCells_withSource (s : State) (cells : List (Addr × Byte)) :
    (s.toCoreState.withSource.storeCells cells).toCoreState = (s.storeCells cells).toCoreState := by
  unfold State.storeCells
  split <;> rfl

/-- Register writes change the core in the same way whatever the source has given. -/
theorem State.writeRegs_withSource (s : State) (cells : List (RegIdx × Byte)) :
    (s.toCoreState.withSource.writeRegs cells).toCoreState = (s.writeRegs cells).toCoreState := by
  induction cells generalizing s with
  | nil => rfl
  | cons c cs ih => exact ih (s.writeReg c.1 c.2)

/-- With the draw as an input, what an instruction does to the core does not depend on the source's counter. -/
theorem execWithDraw_withSource (r : Byte) (i : Instr) (s : State) :
    coreOutcome (execWithDraw r i s.toCoreState.withSource) = coreOutcome (execWithDraw r i s) := by
  cases i with
  | ret =>
    show coreOutcome (exec .ret _) = coreOutcome (exec .ret s)
    rcases Nat.eq_zero_or_pos s.sp.val with h | h
    · rw [exec_ret_of_empty s h, exec_ret_of_empty s.toCoreState.withSource h]; rfl
    · rw [exec_ret_of_pos s h, exec_ret_of_pos s.toCoreState.withSource h]; rfl
  | call nnn =>
    show coreOutcome (exec (.call nnn) _) = coreOutcome (exec (.call nnn) s)
    rcases Nat.lt_or_ge s.sp.val 16 with h | h
    · rw [exec_call_of_lt s nnn h, exec_call_of_lt s.toCoreState.withSource nnn h]; rfl
    · have h' : s.sp.val = 16 := by omega
      rw [exec_call_of_full s nnn h', exec_call_of_full s.toCoreState.withSource nnn h']; rfl
  | ldBVx x => exact congrArg Outcome.next (s.storeCells_withSource (s.bcdCells (s.readReg x)))
  | ldMemVx x => exact congrArg Outcome.next (s.storeCells_withSource (s.blockCells x))
  | ldVxMem x =>
    have h := s.writeRegs_withSource (s.blockLoads x)
    show Outcome.next (State.advance _).toCoreState = Outcome.next (State.advance _).toCoreState
    simp only [State.advance, State.setPc]
    rw [show (s.writeRegs (s.blockLoads x)).pc = (s.writeRegs (s.blockLoads x)).toCoreState.pc from rfl, ← h]
    rfl
  | _ => rfl

/-! ## init (R260 to R262) -/

theorem imageAccepted_iff (image : List Byte) : imageAccepted image = true ↔ image.length ≤ 3584 := by
  rw [imageAccepted, decide_eq_true_eq, Config.progMax]

theorem State.initial_of_le {image : List Byte} (h : image.length ≤ 3584) :
    State.initial image = some { State.reset with mem := Memory.writeAll [] (imageCells image) } :=
  if_pos ((imageAccepted_iff image).mpr h)

theorem State.initial_of_gt {image : List Byte} (h : 3584 < image.length) : State.initial image = none :=
  if_neg fun e => by have := (imageAccepted_iff image).mp e; omega

/-- What `init` can do: a full reset with the image in memory, or no change. -/
theorem State.init_cases (s : State) (image : List Byte) :
    (image.length ≤ 3584 ∧
      s.init image = { State.reset with mem := Memory.writeAll [] (imageCells image), draws := s.draws }) ∨
    (3584 < image.length ∧ s.init image = s) := by
  rcases Nat.lt_or_ge 3584 image.length with h | h
  · exact .inr ⟨h, by simp [State.init, State.initial_of_gt h]⟩
  · exact .inl ⟨h, by simp [State.init, State.initial_of_le h]⟩

/-- Every initial state comes from an accepted image. -/
theorem CoreState.isInitial_iff (c : CoreState) : c.IsInitial ↔
    ∃ image : List Byte, image.length ≤ 3584 ∧
      c = { State.reset.toCoreState with mem := Memory.writeAll [] (imageCells image) } := by
  constructor
  · rintro ⟨image, h⟩
    rcases Nat.lt_or_ge 3584 image.length with hl | hl
    · simp [CoreState.initial, State.initial_of_gt hl] at h
    · exact ⟨image, hl, by simpa [CoreState.initial, State.initial_of_le hl] using h.symm⟩
  · rintro ⟨image, hl, rfl⟩
    exact ⟨image, by simp [CoreState.initial, State.initial_of_le hl]⟩

/-! ## Runs over schedules (R207) -/

@[simp] theorem runSchedule_nil (s : State) : runSchedule [] s = .next s := rfl

theorem runSchedule_cons {op : HostOp} {s t : State} (h : hostOp op s = .next t) (rest : List HostOp) :
    runSchedule (op :: rest) s = runSchedule rest t := by simp [runSchedule, h]

@[simp] theorem runFor_zero (sched : Schedule) (s : State) : runFor sched s 0 = .next s := rfl

theorem runFor_succ {sched : Schedule} {s t : State} {n : Nat} (h : runFor sched s n = .next t) :
    runFor sched s (n + 1) = hostOp (sched n) t := by simp [runFor, h]

/-- What one operation can do. -/
theorem hostOp_cases {op : HostOp} {s t : State} (h : hostOp op s = .next t) :
    (op = .step ∧ step s = .next t) ∨ (op = .tickTimers ∧ t = s.tickTimers) ∨ (∃ k, op = .keyDown k ∧ t = s.keyDown k) ∨
    (∃ k, op = .keyUp k ∧ t = s.keyUp k) ∨ (∃ image, op = .init image ∧ t = s.init image) := by
  cases op with
  | step => exact .inl ⟨rfl, h⟩
  | tickTimers => cases h; exact .inr (.inl ⟨rfl, rfl⟩)
  | keyDown k => cases h; exact .inr (.inr (.inl ⟨k, rfl, rfl⟩))
  | keyUp k => cases h; exact .inr (.inr (.inr (.inl ⟨k, rfl, rfl⟩)))
  | init image => cases h; exact .inr (.inr (.inr (.inr ⟨image, rfl, rfl⟩)))

/-! ## Observations (R205, R206) -/

@[simp] theorem observe_nil (s : State) (last : Option Bool) : observe [] s last = [s.outputs last] := rfl

theorem observe_cons {op : HostOp} {s t : State} (h : hostOp op s = .next t) (rest : List HostOp) (last : Option Bool) :
    observe (op :: rest) s last = s.outputs last :: observe rest t (renderAfter op s last) := by simp [observe, h]

end Sys2Proof.Machine
end

