-- ==== Sys2Proof/Laws/PerInstr.lean ====
section
/-! SUPPORT. Facts about every instruction as syntax, one lemma per constructor. Family `EncodeFixedBits`: the fixed bits of
an instruction's word are those of its row of R94, so the encoder and the mask and match columns agree. -/

namespace Sys2Proof.Laws.EncodeFixedBits

/-- The word of an instruction selects the instruction's row: `encode i & mask = match` (R94). -/
def Statement (i : Instr) : Prop := encode i &&& i.row.mask = i.row.pattern

theorem sys (nnn : Addr) : Statement (.sys nnn) := by
  simp only [Statement, encode, Instr.row, and_F000]; simp
theorem cls : Statement .cls := by unfold Statement; decide
theorem ret : Statement .ret := by unfold Statement; decide
theorem jp (nnn : Addr) : Statement (.jp nnn) := by
  simp only [Statement, encode, Instr.row, and_F000]; simp
theorem call (nnn : Addr) : Statement (.call nnn) := by
  simp only [Statement, encode, Instr.row, and_F000]; simp
theorem seVxNN (x : RegIdx) (nn : Byte) : Statement (.seVxNN x nn) := by
  simp only [Statement, encode, Instr.row, and_F000]; simp
theorem sneVxNN (x : RegIdx) (nn : Byte) : Statement (.sneVxNN x nn) := by
  simp only [Statement, encode, Instr.row, and_F000]; simp
theorem seVxVy (x y : RegIdx) : Statement (.seVxVy x y) := by
  simp only [Statement, encode, Instr.row, and_F00F]; simp
theorem ldVxNN (x : RegIdx) (nn : Byte) : Statement (.ldVxNN x nn) := by
  simp only [Statement, encode, Instr.row, and_F000]; simp
theorem addVxNN (x : RegIdx) (nn : Byte) : Statement (.addVxNN x nn) := by
  simp only [Statement, encode, Instr.row, and_F000]; simp
theorem ldVxVy (x y : RegIdx) : Statement (.ldVxVy x y) := by
  simp only [Statement, encode, Instr.row, and_F00F]; simp
theorem orVxVy (x y : RegIdx) : Statement (.orVxVy x y) := by
  simp only [Statement, encode, Instr.row, and_F00F]; simp
theorem andVxVy (x y : RegIdx) : Statement (.andVxVy x y) := by
  simp only [Statement, encode, Instr.row, and_F00F]; simp
theorem xorVxVy (x y : RegIdx) : Statement (.xorVxVy x y) := by
  simp only [Statement, encode, Instr.row, and_F00F]; simp
theorem addVxVy (x y : RegIdx) : Statement (.addVxVy x y) := by
  simp only [Statement, encode, Instr.row, and_F00F]; simp
theorem subVxVy (x y : RegIdx) : Statement (.subVxVy x y) := by
  simp only [Statement, encode, Instr.row, and_F00F]; simp
theorem shrVx (x y : RegIdx) : Statement (.shrVx x y) := by
  simp only [Statement, encode, Instr.row, and_F00F]; simp
theorem subnVxVy (x y : RegIdx) : Statement (.subnVxVy x y) := by
  simp only [Statement, encode, Instr.row, and_F00F]; simp
theorem shlVx (x y : RegIdx) : Statement (.shlVx x y) := by
  simp only [Statement, encode, Instr.row, and_F00F]; simp
theorem sneVxVy (x y : RegIdx) : Statement (.sneVxVy x y) := by
  simp only [Statement, encode, Instr.row, and_F00F]; simp
theorem ldINNN (nnn : Addr) : Statement (.ldINNN nnn) := by
  simp only [Statement, encode, Instr.row, and_F000]; simp
theorem jpV0NNN (nnn : Addr) : Statement (.jpV0NNN nnn) := by
  simp only [Statement, encode, Instr.row, and_F000]; simp
theorem rndVxNN (x : RegIdx) (nn : Byte) : Statement (.rndVxNN x nn) := by
  simp only [Statement, encode, Instr.row, and_F000]; simp
theorem drwVxVyN (x y : RegIdx) (n : BitVec 4) : Statement (.drwVxVyN x y n) := by
  simp only [Statement, encode, Instr.row, and_F000]; simp
theorem skpVx (x : RegIdx) : Statement (.skpVx x) := by
  simp only [Statement, encode, Instr.row, and_F0FF]; simp
theorem sknpVx (x : RegIdx) : Statement (.sknpVx x) := by
  simp only [Statement, encode, Instr.row, and_F0FF]; simp
theorem ldVxDT (x : RegIdx) : Statement (.ldVxDT x) := by
  simp only [Statement, encode, Instr.row, and_F0FF]; simp
theorem ldVxK (x : RegIdx) : Statement (.ldVxK x) := by
  simp only [Statement, encode, Instr.row, and_F0FF]; simp
theorem ldDTVx (x : RegIdx) : Statement (.ldDTVx x) := by
  simp only [Statement, encode, Instr.row, and_F0FF]; simp
theorem ldSTVx (x : RegIdx) : Statement (.ldSTVx x) := by
  simp only [Statement, encode, Instr.row, and_F0FF]; simp
theorem addIVx (x : RegIdx) : Statement (.addIVx x) := by
  simp only [Statement, encode, Instr.row, and_F0FF]; simp
theorem ldFVx (x : RegIdx) : Statement (.ldFVx x) := by
  simp only [Statement, encode, Instr.row, and_F0FF]; simp
theorem ldBVx (x : RegIdx) : Statement (.ldBVx x) := by
  simp only [Statement, encode, Instr.row, and_F0FF]; simp
theorem ldMemVx (x : RegIdx) : Statement (.ldMemVx x) := by
  simp only [Statement, encode, Instr.row, and_F0FF]; simp
theorem ldVxMem (x : RegIdx) : Statement (.ldVxMem x) := by
  simp only [Statement, encode, Instr.row, and_F0FF]; simp

end Sys2Proof.Laws.EncodeFixedBits
end

