-- ==== Sys2Proof/Tests/Slice0.lean ====
section
/-! SUPPORT. The model's own tests. Expected results come from 95_test_vectors.md (the vector's name is in the theorem's
comment) or are worked out by hand from the rule cited. At the end, for every obligation with hypotheses, concrete values
that meet them together. -/

namespace Sys2Proof.Tests

open Sys2Proof Sys2Proof.Machine

/-! ## Helpers -/

/-- Reset with these registers, `I` and `pc`. -/
def start (regs : List (RegIdx × Byte)) (I pc : Word := 0x0200#16) : State :=
  { State.reset.writeRegs regs with I := I, pc := pc }

/-- One step of the word `w` placed at `pc`, and a check of the state after it. -/
def after (s : State) (w : Nat) (check : State → Bool) : Bool :=
  match step (s.withFetchWord 16 w) with
  | .next t => check t
  | .fault _ => false
  | .refused _ => false

/-- The state with this byte stored. -/
def poke (s : State) (a : Addr) (v : Byte) : State := { s with mem := Memory.write s.mem a v }

/-- The lit pixels of the state are exactly these. -/
def lit (s : State) (pixels : List (Fin 32 × Fin 64)) : Bool :=
  (List.finRange 32).all fun row => (List.finRange 64).all fun col =>
    s.fb.pixel row col == pixels.contains (row, col)

/-! ## Every constructor, from a word written out by the pattern column of R94 -/

theorem test_decode_control :
    decodeTableWord 16 0b0000000100100011 = some (.sys 0x123#12) ∧
    decodeTableWord 16 0b0000000011101110 = some .ret ∧
    decodeTableWord 16 0b0001001000110100 = some (.jp 0x234#12) ∧
    decodeTableWord 16 0b0010001000010000 = some (.call 0x210#12) ∧
    decodeTableWord 16 0b0011001100101010 = some (.seVxNN 0x3#4 0x2A#8) ∧
    decodeTableWord 16 0b0100001100101010 = some (.sneVxNN 0x3#4 0x2A#8) ∧
    decodeTableWord 16 0b0101000100100000 = some (.seVxVy 0x1#4 0x2#4) ∧
    decodeTableWord 16 0b1001000100100000 = some (.sneVxVy 0x1#4 0x2#4) ∧
    decodeTableWord 16 0b1011001100000000 = some (.jpV0NNN 0x300#12) := by decide

theorem test_decode_alu :
    decodeTableWord 16 0b0110000000000101 = some (.ldVxNN 0x0#4 0x05#8) ∧
    decodeTableWord 16 0b0111001000000001 = some (.addVxNN 0x2#4 0x01#8) ∧
    decodeTableWord 16 0b1000001101000000 = some (.ldVxVy 0x3#4 0x4#4) ∧
    decodeTableWord 16 0b1000000100100001 = some (.orVxVy 0x1#4 0x2#4) ∧
    decodeTableWord 16 0b1000000100100010 = some (.andVxVy 0x1#4 0x2#4) ∧
    decodeTableWord 16 0b1000000100100011 = some (.xorVxVy 0x1#4 0x2#4) ∧
    decodeTableWord 16 0b1000000000010100 = some (.addVxVy 0x0#4 0x1#4) ∧
    decodeTableWord 16 0b1000000100100101 = some (.subVxVy 0x1#4 0x2#4) ∧
    decodeTableWord 16 0b1000000100100110 = some (.shrVx 0x1#4 0x2#4) ∧
    decodeTableWord 16 0b1000000100100111 = some (.subnVxVy 0x1#4 0x2#4) ∧
    decodeTableWord 16 0b1000000101111110 = some (.shlVx 0x1#4 0x7#4) ∧
    decodeTableWord 16 0b1100001100001111 = some (.rndVxNN 0x3#4 0x0F#8) := by decide

theorem test_decode_memory :
    decodeTableWord 16 0b1010001011110000 = some (.ldINNN 0x2F0#12) ∧
    decodeTableWord 16 0b1111001000011110 = some (.addIVx 0x2#4) ∧
    decodeTableWord 16 0b1111000000101001 = some (.ldFVx 0x0#4) ∧
    decodeTableWord 16 0b1111001100110011 = some (.ldBVx 0x3#4) ∧
    decodeTableWord 16 0b1111001001010101 = some (.ldMemVx 0x2#4) ∧
    decodeTableWord 16 0b1111001001100101 = some (.ldVxMem 0x2#4) := by decide

theorem test_decode_display :
    decodeTableWord 16 0b0000000011100000 = some .cls ∧
    decodeTableWord 16 0b1101000000010010 = some (.drwVxVyN 0x0#4 0x1#4 0x2#4) := by decide

theorem test_decode_keypad_timers :
    decodeTableWord 16 0b1110001010011110 = some (.skpVx 0x2#4) ∧
    decodeTableWord 16 0b1110001010100001 = some (.sknpVx 0x2#4) ∧
    decodeTableWord 16 0b1111010000000111 = some (.ldVxDT 0x4#4) ∧
    decodeTableWord 16 0b1111001100001010 = some (.ldVxK 0x3#4) ∧
    decodeTableWord 16 0b1111001000010101 = some (.ldDTVx 0x2#4) ∧
    decodeTableWord 16 0b1111001000011000 = some (.ldSTVx 0x2#4) := by decide

/-- C21 to C23: words next to a row that are no row. -/
theorem test_decode_miss :
    [0x5121, 0x8128, 0xE19F, 0xF1FF, 0x812F, 0x9121, 0xF000].all (fun w => decodeTableWord 16 w == none) = true := by decide

/-- C23: near misses of CLS and RET are SYS words. -/
theorem test_decode_near_cls :
    decodeTableWord 16 0x01E0 = some (.sys 0x1E0#12) ∧ decodeTableWord 16 0x00E1 = some (.sys 0x0E1#12) := by decide

/-- Fewer than two bytes are no instruction (R90). -/
theorem test_decode_truncated : decodeBytes [0x60#8] = .error .truncated ∧ decodeBytes [] = .error .truncated :=
  ⟨rfl, rfl⟩

/-! ## WellFormed -/

theorem test_wellFormed_refuses_sys_at_cls : (Instr.sys 0x0E0#12).wellFormed = false := by decide
theorem test_wellFormed_refuses_sys_at_ret : (Instr.sys 0x0EE#12).wellFormed = false := by decide
theorem test_wellFormed_accepts_sys : (Instr.sys 0x1E0#12).wellFormed = true := by decide

/-! ## Control transfer -/

/-- C1. -/
theorem test_sys : after (start []) 0x0123 (fun t => t.pc == 0x0202#16) = true := by decide
/-- C3. -/
theorem test_jp : after (start [] 0#16 0x0ABC#16) 0x1234 (fun t => t.pc == 0x0234#16) = true := by decide
/-- C7. -/
theorem test_call : after { start [] 0#16 0x0FFE#16 with sp := 3 } 0x2400
    (fun t => t.stack[3] == 0x1000#16 && t.sp == 4 && t.pc == 0x0400#16) = true := by decide
/-- F2. -/
theorem test_call_full : after { start [] with sp := 16 } 0x2300
    (fun t => t.fault == ⟨.stackOverflow, 0x0200#16, 0x0300#16⟩ && t.run == .faulted && t.sp == 16) = true := by decide
/-- C6, step 2: the popped entry stays. -/
theorem test_ret : after { start [] 0#16 0x0210#16 with sp := 1, stack := State.reset.stack.set 0 0x0206#16 } 0x00EE
    (fun t => t.pc == 0x0206#16 && t.sp == 0 && t.stack[0] == 0x0206#16) = true := by decide
/-- F1. -/
theorem test_ret_empty : after (start []) 0x00EE
    (fun t => t.fault == ⟨.stackUnderflow, 0x0200#16, 0x0000#16⟩ && t.run == .faulted && t.pc == 0x0200#16) = true := by
  decide
/-- C8. -/
theorem test_se_imm : after (start [(3, 0x2A#8)] 0#16 0x0300#16) 0x332A (fun t => t.pc == 0x0304#16) = true := by decide
/-- C12. -/
theorem test_sne_imm : after (start [(3, 0x2A#8)] 0#16 0x0300#16) 0x432A (fun t => t.pc == 0x0302#16) = true := by decide
/-- C11. -/
theorem test_se_reg : after (start [(1, 7#8), (2, 8#8)] 0#16 0x0210#16) 0x5120 (fun t => t.pc == 0x0212#16) = true := by
  decide
/-- C14. -/
theorem test_sne_reg : after (start [(1, 7#8), (2, 8#8)] 0#16 0x0210#16) 0x9120 (fun t => t.pc == 0x0214#16) = true := by
  decide
/-- C18: the target is not reduced modulo 4096. -/
theorem test_jp_v0 : after (start [(0, 0xFF#8)]) 0xBFFF (fun t => t.pc == 0x10FE#16) = true := by decide
/-- C19: register 0, not register 3. -/
theorem test_jp_v0_not_vx : after (start [(3, 0x50#8)]) 0xB300 (fun t => t.pc == 0x0300#16) = true := by decide
/-- C22. -/
theorem test_miss : after (start [(1, 7#8)]) 0x8128 (fun t => t.pc == 0x0202#16 && t.readReg 1 == 7#8) = true := by decide
/-- C20, the next step. -/
theorem test_fetch_out_of_range :
    (match step (start [] 0#16 0x1002#16) with
      | .next t => t.fault == ⟨.fetchOutOfRange, 0x1002#16, 0x1002#16⟩ && t.run == .faulted
      | .fault _ => false
      | .refused _ => false) = true := by decide

/-! ## Register and arithmetic -/

/-- A35. -/
theorem test_ld_imm : after (start []) 0x6F7B (fun t => t.readReg 15 == 0x7B#8 && t.pc == 0x0202#16) = true := by decide
/-- A27. -/
theorem test_add_imm : after (start [(2, 0xFF#8)]) 0x7201 (fun t => t.readReg 2 == 0#8 && t.readReg 15 == 0#8) = true := by
  decide
/-- A30. -/
theorem test_ld_reg : after (start [(4, 0x9C#8)]) 0x8340 (fun t => t.readReg 3 == 0x9C#8) = true := by decide
/-- A31. -/
theorem test_or : after (start [(1, 0xF0#8), (2, 0x0F#8), (15, 1#8)]) 0x8121
    (fun t => t.readReg 1 == 0xFF#8 && t.readReg 15 == 1#8) = true := by decide
/-- A32. -/
theorem test_and : after (start [(1, 0xF3#8), (2, 0x3C#8), (15, 1#8)]) 0x8122
    (fun t => t.readReg 1 == 0x30#8 && t.readReg 15 == 1#8) = true := by decide
/-- A33. -/
theorem test_xor : after (start [(1, 0xFF#8), (2, 0x0F#8), (15, 1#8)]) 0x8123
    (fun t => t.readReg 1 == 0xF0#8 && t.readReg 15 == 1#8) = true := by decide
/-- A4. -/
theorem test_add : after (start [(1, 0xFF#8), (2, 0xFF#8)]) 0x8124
    (fun t => t.readReg 1 == 0xFE#8 && t.readReg 15 == 1#8) = true := by decide
/-- A7: the flag wins over the sum. -/
theorem test_add_to_flag : after (start [(15, 0xF0#8), (2, 0x20#8)]) 0x8F24 (fun t => t.readReg 15 == 1#8) = true := by
  decide
/-- A10. -/
theorem test_sub_borrow : after (start [(1, 5#8), (2, 6#8), (15, 1#8)]) 0x8125
    (fun t => t.readReg 1 == 0xFF#8 && t.readReg 15 == 0#8) = true := by decide
/-- A9: equal operands do not borrow. -/
theorem test_sub_equal : after (start [(1, 5#8), (2, 5#8)]) 0x8125
    (fun t => t.readReg 1 == 0#8 && t.readReg 15 == 1#8) = true := by decide
/-- A19: `Y` is ignored. -/
theorem test_shr : after (start [(1, 1#8), (2, 0xAA#8)]) 0x8126
    (fun t => t.readReg 1 == 0#8 && t.readReg 15 == 1#8 && t.readReg 2 == 0xAA#8) = true := by decide
/-- A23. -/
theorem test_shr_flag : after (start [(15, 2#8)]) 0x8F06 (fun t => t.readReg 15 == 0#8) = true := by decide
/-- A16. -/
theorem test_subn : after (start [(1, 6#8), (2, 5#8)]) 0x8127
    (fun t => t.readReg 1 == 0xFF#8 && t.readReg 15 == 0#8) = true := by decide
/-- A26. -/
theorem test_shl : after (start [(1, 0xFF#8), (7, 0x33#8)]) 0x817E
    (fun t => t.readReg 1 == 0xFE#8 && t.readReg 15 == 1#8 && t.readReg 7 == 0x33#8) = true := by decide
/-- A36: the drawn byte 0xA7 in the label of the step. -/
theorem test_rnd_masks :
    (match ((start []).withFetchWord 16 0xC30F).toCoreState.transition (.step 0xA7#8) with
      | .next c => c.regs[3] == 0x07#8 && c.pc == 0x0202#16
      | .fault _ => false
      | .refused _ => false) = true := by decide

/-! ## Address register and memory -/

/-- M1. -/
theorem test_ld_i : after (start [] 0xFFFF#16) 0xA2F0 (fun t => t.I == 0x02F0#16) = true := by decide
/-- M4. -/
theorem test_add_i_wraps : after (start [(2, 1#8)] 0xFFFF#16) 0xF21E (fun t => t.I == 0#16) = true := by decide
/-- M3. -/
theorem test_add_i_no_flag : after (start [(2, 1#8)] 0x0FFF#16) 0xF21E
    (fun t => t.I == 0x1000#16 && t.readReg 15 == 0#8) = true := by decide
/-- M8: no masking. -/
theorem test_ld_f : after (start [(0, 0xFF#8)]) 0xF029 (fun t => t.I == 0x04FB#16) = true := by decide
/-- M10. -/
theorem test_ld_b : after (start [(3, 0xEA#8)] 0x0300#16) 0xF333
    (fun t => t.readByte 0x300 == 2#8 && t.readByte 0x301 == 3#8 && t.readByte 0x302 == 4#8 && t.I == 0x0300#16) = true := by
  decide
/-- M18: the third byte wraps into the font region. -/
theorem test_ld_b_wraps : after (start [(3, 0x7B#8)] 0x0FFE#16) 0xF333
    (fun t => t.fault == ⟨.protectedWrite, 0x0200#16, 0x0000#16⟩ && t.readByte 0xFFE == 0#8) = true := by decide
/-- M19. -/
theorem test_ld_mem : after (start [(0, 0x11#8), (1, 0x22#8), (2, 0x33#8), (3, 0x44#8)] 0x0400#16) 0xF255
    (fun t => t.readByte 0x400 == 0x11#8 && t.readByte 0x402 == 0x33#8 && t.readByte 0x403 == 0#8 && t.I == 0x0400#16)
    = true := by decide
/-- M22. -/
theorem test_ld_mem_protected : after (start [(0, 0x11#8), (1, 0x22#8)] 0x01FF#16) 0xF155
    (fun t => t.fault == ⟨.protectedWrite, 0x0200#16, 0x01FF#16⟩ && t.readByte 0x200 == 0xF1#8) = true := by decide
/-- M25: the address wraps to the first font byte. -/
theorem test_ld_regs : after (poke (start [] 0x0FFF#16) 0xFFF 0x77#8) 0xF165
    (fun t => t.readReg 0 == 0x77#8 && t.readReg 1 == 0xF0#8) = true := by decide
/-- M24: the block ends at `X`. -/
theorem test_ld_regs_frame : after (poke (start [(3, 0x99#8)] 0x0300#16) 0x302 4#8) 0xF265
    (fun t => t.readReg 2 == 4#8 && t.readReg 3 == 0x99#8 && t.I == 0x0300#16) = true := by decide
/-- A byte written back to its reset content leaves no cell (the canonical form). -/
theorem test_memory_canonical : Memory.write (Memory.write [] 0x300 5#8) 0x300 0#8 = [] := by decide

/-! ## Display -/

/-- G1. -/
theorem test_cls : after { start [(15, 1#8)] with fb := Framebuffer.blank.toggle 3 4 } 0x00E0
    (fun t => lit t [] && t.readReg 15 == 1#8) = true := by decide
/-- G2: both ends of the row. -/
theorem test_drw_wraps : after (poke (start [(0, 0x3E#8), (1, 0x1F#8)] 0x0300#16) 0x300 0xC3#8) 0xD011
    (fun t => lit t [(31, 62), (31, 63), (31, 4), (31, 5)] && t.readReg 15 == 0#8) = true := by decide
/-- G6: a 0 bit over a lit pixel is no collision. -/
theorem test_drw_no_collision : after { poke (start [] 0x0300#16) 0x300 0x40#8 with fb := Framebuffer.blank.toggle 0 0 } 0xD011
    (fun t => lit t [(0, 0), (0, 1)] && t.readReg 15 == 0#8) = true := by decide
/-- G2, G1, G7: `render` is true for a draw, of no rows too, and false for CLS. -/
theorem test_render : ((start []).withFetchWord 16 0xD011).stepRender = true ∧
    ((start []).withFetchWord 16 0xD010).stepRender = true ∧ ((start []).withFetchWord 16 0x00E0).stepRender = false := by
  decide

/-! ## Keypad, timers and host operations -/

/-- K1. -/
theorem test_skp : after ((start [(2, 7#8)] 0#16 0x0220#16).setKey 7 true) 0xE29E (fun t => t.pc == 0x0224#16) = true := by
  decide
/-- K3: 0x17 names no key. -/
theorem test_skp_out_of_range : after { start [(2, 0x17#8)] 0#16 0x0220#16 with key := Vector.replicate 16 true } 0xE29E
    (fun t => t.pc == 0x0222#16) = true := by decide
/-- K4. -/
theorem test_sknp : after ((start [(2, 7#8)] 0#16 0x0220#16).setKey 7 true) 0xE2A1 (fun t => t.pc == 0x0222#16) = true := by
  decide
/-- K5. -/
theorem test_sknp_out_of_range : after { start [(2, 0x20#8)] 0#16 0x0220#16 with key := Vector.replicate 16 true } 0xE2A1
    (fun t => t.pc == 0x0224#16) = true := by decide
/-- K6, the first step: a held key does not resolve the wait. -/
theorem test_ld_k : after ((start [] 0#16 0x020E#16).setKey 2 true) 0xF30A
    (fun t => t.run == .awaitingKey && t.kx == 3 && t.pc == 0x0210#16 && t.readReg 3 == 0#8) = true := by decide
/-- K8. -/
theorem test_keyDown_resolves :
    let t := ({ start [] with run := .awaitingKey, kx := 3 }.setKey 5 true).keyDown 5
    t.readReg 3 = 5#8 ∧ t.run = .running := by decide
/-- K14. -/
theorem test_keyUp : (((start []).keyDown 4).keyUp 4) = start [] := by decide
/-- K9. -/
theorem test_ld_dt_read : after { start [] with dt := 3#8 } 0xF407 (fun t => t.readReg 4 == 3#8) = true := by decide
/-- K10. -/
theorem test_ld_dt_write : after { start [(2, 5#8)] with dt := 9#8 } 0xF215 (fun t => t.dt == 5#8) = true := by decide
/-- K11. -/
theorem test_ld_st : after (start [(2, 0x1E#8)]) 0xF218 (fun t => t.st == 0x1E#8 && (t.outputs none).soundActive) = true := by
  decide
/-- K12, and S2 for the timer at 0. -/
theorem test_tick : tickDown 2#8 = 1#8 ∧ tickDown 1#8 = 0#8 ∧ tickDown 0#8 = 0#8 := by decide
/-- F4: a key in the Faulted state writes no register. -/
theorem test_faulted_key :
    let t := ((start []).raise .stackUnderflow 0#16).keyDown 3
    t.run = .faulted ∧ t.readKey 3 = true ∧ t.readReg 0 = 0#8 := by decide
/-- I1: bytes of the image, and the byte after it. -/
theorem test_init : let t := State.reset.init [0x60#8, 0x05#8]
    t.readByte 0x200 = 0x60#8 ∧ t.readByte 0x201 = 0x05#8 ∧ t.readByte 0x202 = 0#8 ∧ t.readByte 0x04F = 0x80#8 := by decide
/-- I3, on a machine with no state yet: no initial state comes of 3585 bytes. -/
theorem test_initial_refused : CoreState.initial (List.replicate 3585 0x00#8) = none := by
  rw [CoreState.initial, State.initial_of_gt (by rw [List.length_replicate]; omega)]
  rfl
/-- I5. -/
theorem test_init_after_fault : (State.reset.raise .stackUnderflow 0#16).init [] = State.reset := by decide

/-- R205, R206: no result before the first `step`, then the result of the last one, each step giving its own. -/
theorem test_observe_render :
    (observe [.tickTimers, .step, .keyDown 3, .step] ((start []).withFetchWord 16 0xD012) none).map Outputs.render =
      [none, none, some true, some true, some false] := by decide
/-- An infinite schedule of steps from reset: SYS 0 twice (I4). -/
theorem test_runFor :
    (match runFor (fun _ => .step) State.reset 2 with
      | .next t => t.pc == 0x0204#16
      | .fault _ => false
      | .refused _ => false) = true := by decide

/-! ## Values that meet the hypotheses of each obligation -/

/-- A word placed at `pc` by `withFetchWord` is what the next step executes. -/
theorem placed_aboutToExecute (s : State) (w : Nat) (i : Instr) (h : decodeWord (tableWord 16 w) = .ok i) :
    AboutToExecute (s.withFetchWord 16 w) i := by
  refine ⟨rfl, (State.fetchInRange_iff _).mp (s.withFetchWord_fetchInRange 16 w), ?_⟩
  rw [← State.fetchWord_eq_wordAtPc, State.withFetchWord_fetchWord]
  exact h

/-- Reset with the word `w` at `pc` = 0x200. -/
def placed (w : Nat) : State := State.reset.withFetchWord 16 w

theorem placed_fetchable (w : Nat) : PcFetchable (placed w) :=
  (State.fetchInRange_iff _).mp (State.reset.withFetchWord_fetchInRange 16 w)

theorem placed_word (w : Nat) : wordAtPc (placed w) = tableWord 16 w := by
  rw [← State.fetchWord_eq_wordAtPc]; exact State.reset.withFetchWord_fetchWord 16 w

theorem witness_DecodeOfEncodeIsIdentity : (Instr.sys 0x123#12).wellFormed = true := by decide
theorem witness_EncodeOfDecodeIsIdentity : decodeWord 0x8124#16 = .ok (.addVxVy 0x1#4 0x2#4) := rfl
theorem witness_DecoderAgreesWithOpcodeTable :
    decodeWord 0x00E0#16 = .ok .cls ∧ decodeWord 0x5121#16 = .error (.miss 0x5121#16) := ⟨rfl, rfl⟩
theorem witness_OpcodeRowsOverlapOnlyAtSys :
    (Instr.sys 0).row ∈ opcodeTable ∧ Instr.cls.row ∈ opcodeTable ∧ (Instr.sys 0).row.selects 0x00E0#16 = true ∧
    Instr.cls.row.selects 0x00E0#16 = true := by decide
theorem witness_StepExecutesTheInstructionAtPc :
    (placed 0x6005).run = .running ∧ PcFetchable (placed 0x6005) ∧
    decodeWord ((placed 0x6005).readByte (BitVec.ofNat 12 (placed 0x6005).pc.toNat) ++
      (placed 0x6005).readByte (BitVec.ofNat 12 ((placed 0x6005).pc.toNat + 1))) = .ok (.ldVxNN 0x0#4 0x05#8) :=
  ⟨rfl, placed_fetchable _, (placed_aboutToExecute State.reset 0x6005 _ rfl).2.2⟩
/-- The first and the last address of R70. -/
theorem witness_PcFetchable_bounds : PcFetchable (start [] 0#16 0x0200#16) ∧ PcFetchable (start [] 0#16 0x0FFE#16) := by
  simp [PcFetchable, start]
theorem witness_UnmatchedWordsOnlyAdvancePc : (placed 0x5121).run = .running ∧ PcFetchable (placed 0x5121) ∧
    Unmatched (wordAtPc (placed 0x5121)) := by
  refine ⟨rfl, placed_fetchable _, ?_⟩
  rw [placed_word]
  exact .inr (.inl (by decide))
/-- Every group of R96 has a word. -/
theorem witness_Unmatched_groups : Unmatched 0x0000#16 ∧ Unmatched 0x5001#16 ∧ Unmatched 0x8008#16 ∧ Unmatched 0x900F#16 ∧
    Unmatched 0xE09F#16 ∧ Unmatched 0xF0FF#16 := by
  simp [Unmatched]
/-- The target equal to `pc`, and targets below and above the fetchable range. -/
theorem witness_JumpSetsPcToItsTarget : State.reset.run = .running ∧ State.reset.pc.toNat = (0x200#12 : Addr).toNat ∧
    (0x1FF#12 : Addr).toNat < 0x200 ∧ (0xFFF#12 : Addr).toNat = 0xFFF := by decide
/-- The deepest call that fits, and the first that does not (also CallThenReturnComesBack). -/
theorem witness_CallPushesTheReturnAddress :
    { start [] with sp := 15 }.sp.val < 16 ∧ { start [] with sp := 16 }.sp.val = 16 := by decide
theorem witness_ReturnPopsTheReturnAddress : 0 < { start [] with sp := 1 }.sp.val ∧ (start []).sp.val = 0 := by decide
theorem witness_CallThenReturnComesBack : { start [] with sp := 15 }.sp.val < 16 := by decide
theorem witness_SkipsAdvanceByFourOrTwo :
    (0x1#4 : BitVec 4) ≠ 0x0#4 ∧
    (start [] 0#16 0x0FFE#16).run = .running ∧ (start [] 0#16 0x0FFE#16).pc = 0x0FFE#16 ∧
    decide ((start [] 0#16 0x0FFE#16).readReg 0x1#4 = 0x00#8) = true ∧
    decide ((start [] 0#16 0x0FFE#16).readReg 0x1#4 ≠ 0x01#8) = true ∧
    decide ((start [] 0#16 0x0FFE#16).readReg 0x1#4 = (start [] 0#16 0x0FFE#16).readReg 0x2#4) = true ∧
    decide ((start [(1, 1#8)] 0#16 0x0FFE#16).readReg 0x1#4 ≠ (start [] 0#16 0x0FFE#16).readReg 0x2#4) = true := by decide
/-- The smallest sum that cannot be fetched. -/
theorem witness_JumpWithOffsetAddsRegisterZero :
    (start [(0, 1#8)]).run = .running ∧ 0xFFE < (0xFFE#12 : Addr).toNat + ((start [(0, 1#8)]).readReg 0x0#4).toNat := by
  decide
/-- A next state, one that is no fault, one that is, and a decode miss. -/
theorem witness_PcAdvancesByClass :
    (start []).run = .running ∧ exec (.jp 0x300#12) (start []) = .next ((start []).setPc 0x0300#16) ∧
    exec .ret (start []) = .next ((start []).raise .stackUnderflow 0#16) ∧
    (∃ t, step (placed 0x5121) = .next t) ∧ Unmatched (wordAtPc (placed 0x5121)) :=
  ⟨rfl, rfl, rfl, ⟨_, step_of_miss _ (.miss 0x5121#16) rfl (State.reset.withFetchWord_fetchInRange 16 0x5121)
    (by rw [placed, State.withFetchWord_fetchWord]; rfl)⟩, witness_UnmatchedWordsOnlyAdvancePc.2.2⟩
/-- Key 15 down, key 15 up, and a value that names no key. -/
theorem witness_KeySkipsTestTheNamedKey :
    (true = true ↔ (((start [(2, 15#8)]).setKey 15 true).readReg 2).toNat ≤ 15 ∧
      ((start [(2, 15#8)]).setKey 15 true).readKey ((((start [(2, 15#8)]).setKey 15 true).readReg 2).setWidth 4) = true) ∧
    (false = true ↔ ((start [(2, 15#8)]).readReg 2).toNat ≤ 15 ∧
      (start [(2, 15#8)]).readKey (((start [(2, 15#8)]).readReg 2).setWidth 4) = true) ∧
    (false = true ↔ ((start [(2, 16#8)]).readReg 2).toNat ≤ 15 ∧
      (start [(2, 16#8)]).readKey (((start [(2, 16#8)]).readReg 2).setWidth 4) = true) := by decide
theorem witness_NoBorrowIsCarryOfComplementAddition : (0x1#4 : RegIdx) ≠ 0xF#4 := by decide
theorem witness_RandomByteIsMasked : (0x00#8 : Byte) = 0x00#8 := rfl
theorem witness_OnlyDestinationRegistersChange :
    (∃ t, exec (.addVxVy 0x1#4 0x2#4) State.reset = .next t) ∧ ¬ MayWriteReg (.addVxVy 0x1#4 0x2#4) 0x2#4 :=
  ⟨exec_total _ _, by simp [MayWriteReg]⟩
theorem witness_OnlyNamedPartsChange : ∃ t, exec (.ldMemVx 0x1#4) State.reset = .next t := exec_total _ _
/-- A write and a tick of the delay timer, and the two instructions that name it. -/
theorem witness_DelayTimerIsWrittenReadAndTicked :
    (∀ image, HostOp.tickTimers ≠ .init image) ∧ hostOp .tickTimers State.reset = .next State.reset ∧
    AboutToExecute (placed 0xF215) (.ldDTVx 0x2#4) ∧ AboutToExecute (placed 0xF407) (.ldVxDT 0x4#4) :=
  ⟨by simp, rfl, placed_aboutToExecute _ _ _ rfl, placed_aboutToExecute _ _ _ rfl⟩
theorem witness_SoundTimerIsWrittenTickedAndReadByNoInstruction :
    (∀ image, HostOp.tickTimers ≠ .init image) ∧ hostOp .tickTimers State.reset = .next State.reset ∧
    AboutToExecute (placed 0xF218) (.ldSTVx 0x2#4) :=
  ⟨by simp, rfl, placed_aboutToExecute _ _ _ rfl⟩
theorem witness_OnlyKeyEdgesWriteTheKeyFlags :
    (∀ image, HostOp.keyUp 3 ≠ .init image) ∧ hostOp (.keyUp 3) State.reset = .next (State.reset.keyUp 3) ∧
    ((start [(2, 15#8)]).readReg 2).toNat = (15#4 : KeyIdx).toNat := ⟨by simp, rfl, by decide⟩
theorem witness_StackAndFramebufferAreIsolatedFromMemory :
    (∃ t, exec (.ldBVx 0x3#4) (start [] 0x0300#16) = .next t) ∧ ∃ t, exec (.ldMemVx 0x3#4) (start [] 0x0300#16) = .next t :=
  ⟨exec_total _ _, exec_total _ _⟩
theorem witness_WaitRegisterIsDeadOutsideTheWait :
    State.reset.run ≠ .awaitingKey ∧ AboutToExecute (placed 0xF30A) (.ldVxK 0x3#4) ∧
    { start [] with run := .awaitingKey }.run = .awaitingKey := ⟨by decide, placed_aboutToExecute _ _ _ rfl, rfl⟩
/-- The lowest and the highest address three bytes can be stored at. -/
theorem witness_DigitStoreWritesThreeBytes :
    (∀ k, k ≤ 2 → 0x1FF < ((start [] 0x0200#16).ea k).toNat) ∧ ∀ k, k ≤ 2 → 0x1FF < ((start [] 0x0FFD#16).ea k).toNat := by
  constructor <;> intro k hk <;> simp [start] <;> omega
/-- The longest block at the lowest and at the highest address. -/
theorem witness_BlockStoreWritesTheRegisters :
    (∀ k, k ≤ (0xF#4 : RegIdx).toNat → 0x1FF < ((start [] 0x0200#16).ea k).toNat) ∧
    ∀ k, k ≤ (0xF#4 : RegIdx).toNat → 0x1FF < ((start [] 0x0FF0#16).ea k).toNat := by
  constructor <;> intro k hk <;> simp at hk <;> simp [start] <;> omega
/-- The first target protected, and (M18) only the last, past the wrap; for both instructions. -/
theorem witness_ProtectedStoresFaultBeforeWriting :
    (((start [] 0x01FE#16).ea 0).toNat ≤ 0x1FF ∧ ∀ j, j < 0 → 0x1FF < ((start [] 0x01FE#16).ea j).toNat) ∧
    2 ≤ (0x2#4 : RegIdx).toNat ∧ ((start [] 0x0FFE#16).ea 2).toNat ≤ 0x1FF ∧
    ∀ j, j < 2 → 0x1FF < ((start [] 0x0FFE#16).ea j).toNat := by
  refine ⟨⟨by decide, by omega⟩, by decide, by decide, ?_⟩
  intro j hj
  simp [start]
  omega
theorem witness_HighBitsOfIReachNothing : (0xF300#16 : Word).toNat % 4096 = (start [] 0x0300#16).I.toNat % 4096 := by decide
theorem witness_CanonicalMemoriesThatReadAlikeAreEqual :
    Memory.wf (Memory.write [] 0x300 5#8) = true ∧
    Memory.wf (Memory.write (Memory.write [] 0x300 7#8) 0x300 5#8) = true ∧
    ∀ a : Addr, Memory.read (Memory.write [] 0x300 5#8) a =
      Memory.read (Memory.write (Memory.write [] 0x300 7#8) 0x300 5#8) a := by
  refine ⟨by decide, by decide, fun a => ?_⟩
  simp only [Memory.read_write]
  split <;> rfl
/-- M26. -/
theorem witness_StoredBytesAreFetchedNext :
    (∀ k, k ≤ (0x1#4 : RegIdx).toNat → 0x1FF < ((start [] 0x0202#16).ea k).toNat) ∧ 1 ≤ (0x1#4 : RegIdx).toNat ∧
    (start [] 0x0202#16).I.toNat % 4096 = ((start [] 0x0202#16).pc.toNat + 2) % 4096 := by
  refine ⟨?_, by decide, by decide⟩
  intro k hk
  simp at hk
  simp [start]
  omega
theorem witness_ClearScreenBlanksEveryPixel : AboutToExecute (placed 0x00E0) .cls := placed_aboutToExecute _ _ _ rfl
theorem witness_RenderIsTrueExactlyForDraw : AboutToExecute (placed 0xD012) (.drwVxVyN 0x0#4 0x1#4 0x2#4) ∧
    hostOp .tickTimers State.reset = .next State.reset :=
  ⟨placed_aboutToExecute _ _ _ rfl, rfl⟩
/-- A covered pixel that is lit and one that is dark, in the corner where both axes end. -/
theorem witness_SpriteCovers :
    SpriteCovers (start [] 0x0000#16) 0x3F#8 0x1F#8 0x1#4 31 63 ∧ SpriteCovers (start [] 0x0000#16) 0x3F#8 0x1F#8 0x2#4 31 0 ∧
    ¬ SpriteCovers (start [] 0x0000#16) 0x3F#8 0x1F#8 0x0#4 31 63 :=
  ⟨⟨0, 0, by decide⟩, ⟨0, 1, by decide⟩, by simp [SpriteCovers]⟩
theorem witness_DrawingTwiceRestoresTheFramebuffer : (0x0#4 : RegIdx) ≠ 0xF#4 ∧ (0x1#4 : RegIdx) ≠ 0xF#4 := by decide
theorem witness_KeyDownResolvesTheWait :
    { start [] with run := .awaitingKey }.run = .awaitingKey ∧ (start []).run ≠ .awaitingKey ∧
    NeverResets (fun n => if n = 2 then .keyDown 3 else .step) ∧
    KeyEventuallyPressed (fun n => if n = 2 then .keyDown 3 else .step) := by
  refine ⟨by decide, by decide, fun n image => ?_, 2, 3, rfl⟩
  show (if n = 2 then HostOp.keyDown 3 else HostOp.step) ≠ .init image
  split <;> simp
/-- A label of each operation, and a state that executes no RND. -/
theorem witness_OperationsAreTransitionsOfTheCore :
    HostOp.step.label (Config.randomByte State.reset.draws) = some (.step (Config.randomByte State.reset.draws)) ∧
    (HostOp.keyDown 3).label 0x00#8 = some (.keyDown 3) ∧
    ∀ x nn, ¬ AboutToExecute (placed 0x6005).toCoreState.withSource (.rndVxNN x nn) := by
  refine ⟨rfl, rfl, fun x nn h => ?_⟩
  have hd := (placed_aboutToExecute State.reset 0x6005 (.ldVxNN 0x0#4 0x05#8) rfl).2.2
  exact absurd (hd.symm.trans h.2.2) (by simp)
theorem witness_HostEventsNeverChangePc : (start []).run ≠ .awaitingKey ∧ (0x1#4 : RegIdx) ≠ (start []).kx := by decide
/-- One state for each of the four causes of R221. -/
theorem witness_FaultsLatchTheirCauseAndNothingElse :
    FaultCondition (start [] 0#16 0x01FF#16) .fetchOutOfRange 0x01FF#16 ∧
    FaultCondition (start [] 0#16 0x0FFF#16) .fetchOutOfRange 0x0FFF#16 ∧
    FaultCondition ({ start [] with sp := 16 }.withFetchWord 16 0x2300) .stackOverflow 0x0300#16 ∧
    FaultCondition (placed 0x00EE) .stackUnderflow 0x0000#16 ∧
    FaultCondition ((start [] 0x01FF#16).withFetchWord 16 0xF155) .protectedWrite 0x01FF#16 ∧
    FaultCondition ((start [] 0x0FFE#16).withFetchWord 16 0xF333) .protectedWrite 0x0000#16 := by
  refine ⟨.inl ⟨rfl, by simp [PcFetchable, start], rfl⟩, .inl ⟨rfl, by simp [PcFetchable, start], rfl⟩, ?_, ?_, ?_, ?_⟩
  · exact .inr (.inl ⟨rfl, rfl, 0x300#12, placed_aboutToExecute _ _ _ rfl, rfl⟩)
  · exact .inr (.inr (.inl ⟨rfl, rfl, placed_aboutToExecute _ _ _ rfl, rfl⟩))
  · exact .inr (.inr (.inr ⟨rfl, 0x1#4, 0, .inr ⟨placed_aboutToExecute _ _ _ rfl, by decide⟩, by decide, by omega, rfl⟩))
  · refine .inr (.inr (.inr ⟨rfl, 0x3#4, 2, .inl ⟨placed_aboutToExecute _ _ _ rfl, by decide⟩, by decide, ?_, rfl⟩))
    intro j hj
    have e : ((start [] 0x0FFE#16).withFetchWord 16 0xF333).ea j = (start [] 0x0FFE#16).ea j := rfl
    rw [e]
    simp [start]
    omega
/-- Each operation, and for `step` the three kinds of state. -/
theorem witness_RunStateFollowsItsTransitionTable :
    (∃ t, hostOp (.init []) State.reset = .next t) ∧ (∃ t, hostOp (.keyDown 3) State.reset = .next t) ∧
    { start [] with run := .faulted }.run ≠ .running ∧ AboutToExecute (placed 0xF30A) (.ldVxK 0x3#4) ∧
    FaultCondition (placed 0x00EE) .stackUnderflow 0x0000#16 :=
  ⟨⟨_, rfl⟩, ⟨_, rfl⟩, by decide, placed_aboutToExecute _ _ _ rfl, witness_FaultsLatchTheirCauseAndNothingElse.2.2.2.1⟩
theorem witness_FaultedIsPermanentUntilInit : { start [] with run := .faulted }.run = .faulted ∧
    ∀ image, HostOp.init image ∉ [HostOp.step, .tickTimers, .keyDown 3, .keyUp 3] := by simp
/-- The largest image accepted and the smallest refused. -/
theorem witness_InitLoadsTheImageOrRefusesIt :
    (List.replicate 3584 (0x00#8 : Byte)).length ≤ 3584 ∧ 3584 < (List.replicate 3585 (0x00#8 : Byte)).length := by
  simp only [List.length_replicate]; omega
/-- The state right after reset meets the invariant, and it steps. -/
theorem witness_StepKeepsTheInvariant : Inv (placed 0x6005) ∧ ∃ t, step (placed 0x6005) = .next t := by
  refine ⟨⟨by decide, ?_, by simp [LatchAgrees, placed, State.withFetchWord, State.reset], ?_, ?_⟩, ?_⟩
  · intro a ha
    have h0 : a ≠ 0x200#12 := fun e => by subst e; simp at ha
    have h1 : a ≠ 0x201#12 := fun e => by subst e; simp at ha
    show Memory.read (Memory.writeAll [] [(0x200#12, 0x60#8), (0x201#12, 0x05#8)]) a = _
    simp [h0, h1, State.readByte, State.reset]
  · intro k _ hk
    exact absurd hk (Nat.not_lt_zero k)
  · show (0x0200#16 : Word).toNat ≤ 0x10FE
    decide
  · rw [placed, step_withFetchWord _ _ _ (.ldVxNN 0x0#4 0x05#8) (by decide)]
    exact exec_total _ _
theorem witness_SchedulesKeepTheInvariant :
    ([0x60#8, 0x05#8] : List Byte).length ≤ 3584 ∧ State.reset.toCoreState.IsInitial ∧ Inv (placed 0x6005) ∧
    ∃ t, runSchedule [.tickTimers] (placed 0x6005) = .next t :=
  ⟨by decide, ⟨[], rfl⟩, witness_StepKeepsTheInvariant.1, _, rfl⟩
/-- `JP 0x200` at 0x200, and a schedule of steps and ticks in turn. -/
theorem witness_FinishedProgramsAreFixedPoints : Finished (placed 0x1200) ∧
    NeverResets (fun n => if n % 2 = 1 then .tickTimers else .step) ∧
    TicksKeepComing (fun n => if n % 2 = 1 then .tickTimers else .step) := by
  refine ⟨⟨rfl, rfl, placed_fetchable _, by rw [placed_word]; rfl⟩, fun n image => ?_, fun n => ⟨2 * n + 1, by omega, ?_⟩⟩
  · show (if n % 2 = 1 then HostOp.tickTimers else HostOp.step) ≠ .init image
    split <;> simp
  · show (if (2 * n + 1) % 2 = 1 then HostOp.tickTimers else HostOp.step) = .tickTimers
    rw [if_pos (by omega)]

end Sys2Proof.Tests
end

/-! # Proofs of the family 10_state.md: the program counter, the timers, the key flags and the wait register -/

namespace Sys2Proof.Machine

open Host (Outcome)

/-! ## The step, by the names the statements use -/

/-- A step that is about to execute `i` is `exec` of `i` (R90, R201). -/
theorem step_of_aboutToExecute {s : State} {i : Instr} (h : AboutToExecute s i) : step s = exec i s := by
  obtain ⟨hrun, hpc, hdec⟩ := h
  exact step_of_decoded s i hrun (State.fetchInRange_of_fetchable hpc) (by rwa [State.fetchWord_eq_wordAtPc])

/-- A step that is not Running does nothing (R33). -/
theorem step_of_run_ne {s : State} (h : s.run ≠ .running) : step s = .next s := by
  rcases hrun : s.run with _ | _ | _
  · exact absurd hrun h
  · exact step_of_awaitingKey s hrun
  · exact step_of_faulted s hrun

/-- What RET can do (R122). -/
theorem exec_ret_cases {s t : State} (h : exec .ret s = .next t) :
    (s.sp.val = 0 ∧ t = s.raise .stackUnderflow 0x0000#16) ∨
    ∃ _ : 0 < s.sp.val, t = { s with pc := s.stack[s.sp.val - 1], sp := ⟨s.sp.val - 1, by omega⟩ } := by
  rcases Nat.eq_zero_or_pos s.sp.val with hsp | hsp
  · rw [exec_ret_of_empty s hsp] at h
    exact .inl ⟨hsp, by simpa using h.symm⟩
  · rw [exec_ret_of_pos s hsp] at h
    exact .inr ⟨hsp, by simpa using h.symm⟩

/-- What CALL can do (R124). -/
theorem exec_call_cases {s t : State} {nnn : Addr} (h : exec (.call nnn) s = .next t) :
    (s.sp.val = 16 ∧ t = s.raise .stackOverflow (zextAddr nnn)) ∨
    ∃ hsp : s.sp.val < 16, t = { s with
      pc := zextAddr nnn, stack := s.stack.set s.sp.val (s.pc + 2#16) hsp, sp := ⟨s.sp.val + 1, by omega⟩ } := by
  rcases Nat.lt_or_ge s.sp.val 16 with hsp | hsp
  · rw [exec_call_of_lt s nnn hsp] at h
    exact .inr ⟨hsp, by simpa using h.symm⟩
  · have hfull : s.sp.val = 16 := by omega
    rw [exec_call_of_full s nnn hfull] at h
    exact .inl ⟨hfull, by simpa using h.symm⟩

/-! ## Frames -/

/-- A frame, spelled out part by part. -/
theorem changesOnly_iff (parts : List Part) (s t : State) : ChangesOnly parts s t ↔
    (.regs ∉ parts → ∀ r, t.readReg r = s.readReg r) ∧ (.I ∉ parts → t.I = s.I) ∧ (.pc ∉ parts → t.pc = s.pc) ∧
    (.sp ∉ parts → t.sp = s.sp) ∧ (.stack ∉ parts → t.stack = s.stack) ∧ (.dt ∉ parts → t.dt = s.dt) ∧
    (.st ∉ parts → t.st = s.st) ∧ (.mem ∉ parts → ∀ a, t.readByte a = s.readByte a) ∧
    (.fb ∉ parts → t.fb = s.fb) ∧ (.key ∉ parts → t.key = s.key) ∧ (.run ∉ parts → t.run = s.run) ∧
    (.kx ∉ parts → t.kx = s.kx) ∧ (.fault ∉ parts → t.fault = s.fault) ∧ (.draws ∉ parts → t.draws = s.draws) := by
  constructor
  · intro h
    exact ⟨h .regs, h .I, h .pc, h .sp, h .stack, h .dt, h .st, h .mem, h .fb, h .key, h .run, h .kx, h .fault, h .draws⟩
  · rintro ⟨regs, I, pc, sp, stack, dt, st, mem, fb, key, run, kx, fault, draws⟩ p
    cases p <;> assumption

theorem State.raise_changesOnly (s : State) (c : FaultCode) (w : Word) : ChangesOnly [.run, .fault] s (s.raise c w) := by
  simp [changesOnly_iff]

theorem State.advance_changesOnly (s : State) : ChangesOnly [.pc] s s.advance := by simp [changesOnly_iff]

theorem State.tickTimers_changesOnly (s : State) : ChangesOnly [.dt, .st] s s.tickTimers := by simp [changesOnly_iff]

theorem State.keyUp_changesOnly (s : State) (k : KeyIdx) : ChangesOnly [.key] s (s.keyUp k) := by simp [changesOnly_iff]

theorem State.keyDown_changesOnly (s : State) (k : KeyIdx) : ChangesOnly [.regs, .key, .run] s (s.keyDown k) := by
  by_cases h : s.run = .awaitingKey
  · simp [s.keyDown_of_awaitingKey k h, changesOnly_iff, State.readByte]
  · simp [s.keyDown_of_ne k h, changesOnly_iff]

/-- A store raises a fault, or changes only memory and `pc`. -/
theorem State.storeCells_frame (s : State) (cells : List (Addr × Byte)) :
    (∃ c w, s.storeCells cells = s.raise c w) ∨ ChangesOnly [.pc, .mem] s (s.storeCells cells) := by
  rcases s.storeCells_cases cells with ⟨_, c, _, _, _, _, h⟩ | ⟨_, h⟩
  · exact .inl ⟨_, _, h⟩
  · rw [h]
    exact .inr (by simp [changesOnly_iff, State.readReg])

/-- What an instruction can do: raise a fault, or change only its own parts (R20, R222). -/
theorem exec_frame {i : Instr} {s t : State} (h : exec i s = .next t) :
    (∃ c w, t = s.raise c w) ∨ ChangesOnly (partsWritten i) s t := by
  cases i with
  | ret =>
    rcases exec_ret_cases h with ⟨_, rfl⟩ | ⟨_, rfl⟩
    · exact .inl ⟨_, _, rfl⟩
    · exact .inr (by simp [changesOnly_iff, partsWritten, State.readReg, State.readByte])
  | call nnn =>
    rcases exec_call_cases h with ⟨_, rfl⟩ | ⟨_, rfl⟩
    · exact .inl ⟨_, _, rfl⟩
    · exact .inr (by simp [changesOnly_iff, partsWritten, State.readReg, State.readByte])
  | ldBVx x =>
    cases h
    exact s.storeCells_frame _
  | ldMemVx x =>
    cases h
    exact s.storeCells_frame _
  | ldVxMem x =>
    cases h
    rw [State.writeRegs_eq]
    exact .inr (by simp [changesOnly_iff, partsWritten, State.readByte])
  | _ =>
    cases h
    exact .inr (by simp [changesOnly_iff, partsWritten, State.rndWith, State.readReg, State.readByte])

/-- A part other than `pc`, `run` and the latch changes in a step only by an instruction that writes it. -/
theorem step_frame {s t : State} (h : step s = .next t) {p : Part} (hp : p ∉ [Part.pc, .run, .fault]) :
    p.same s t ∨ ∃ i, AboutToExecute s i ∧ p ∈ partsWritten i := by
  have raised (c : FaultCode) (w : Word) : p.same s (s.raise c w) :=
    (s.raise_changesOnly c w).mono (by simp) p hp
  rcases step_cases h with ⟨_, rfl⟩ | ⟨_, _, rfl⟩ | ⟨_, _, _, rfl⟩ | ⟨hrun, hr, i, hd, he⟩
  · exact .inl (ChangesOnly.refl _ _ p hp)
  · exact .inl (raised _ _)
  · exact .inl (s.advance_changesOnly.mono (by simp) p hp)
  · rcases exec_frame he with ⟨c, w, rfl⟩ | hi
    · exact .inl (raised c w)
    · by_cases hin : p ∈ partsWritten i
      · exact .inr ⟨i, ⟨hrun, s.fetchInRange_iff.mp hr, by rwa [← State.fetchWord_eq_wordAtPc]⟩, hin⟩
      · exact .inl (hi p hin)

/-- Outside `init`, a part other than `pc`, `run` and the latch changes only by a step whose instruction writes it, and as
the frames of ticks and key edges allow. -/
theorem hostOp_frame {op : HostOp} {s t : State} (noInit : ∀ image, op ≠ .init image) (h : hostOp op s = .next t)
    {p : Part} (hp : p ∉ [Part.pc, .run, .fault]) :
    p.same s t ∨ (op = .step ∧ ∃ i, AboutToExecute s i ∧ p ∈ partsWritten i) ∨
    (op = .tickTimers ∧ t = s.tickTimers ∧ p ∈ [Part.dt, .st]) ∨
    (p ∈ [Part.regs, .key] ∧ ∃ k, op = .keyDown k ∨ op = .keyUp k) := by
  rcases hostOp_cases h with ⟨rfl, hs⟩ | ⟨rfl, rfl⟩ | ⟨k, rfl, rfl⟩ | ⟨k, rfl, rfl⟩ | ⟨image, rfl, _⟩
  · exact (step_frame hs hp).imp_right fun hi => .inl ⟨rfl, hi⟩
  · by_cases hin : p ∈ [Part.dt, .st]
    · exact .inr (.inr (.inl ⟨rfl, rfl, hin⟩))
    · exact .inl (s.tickTimers_changesOnly p hin)
  · by_cases hin : p ∈ [Part.regs, .key]
    · exact .inr (.inr (.inr ⟨hin, k, .inl rfl⟩))
    · exact .inl (s.keyDown_changesOnly k p (by simp_all))
  · by_cases hin : p ∈ [Part.regs, .key]
    · exact .inr (.inr (.inr ⟨hin, k, .inr rfl⟩))
    · exact .inl (s.keyUp_changesOnly k p (by simp_all))
  · exact absurd rfl (noInit image)

theorem dt_mem_partsWritten (i : Instr) : .dt ∈ partsWritten i ↔ ∃ x, i = .ldDTVx x := by
  cases i <;> simp [partsWritten]

theorem st_mem_partsWritten (i : Instr) : .st ∈ partsWritten i ↔ ∃ x, i = .ldSTVx x := by
  cases i <;> simp [partsWritten]

theorem run_mem_partsWritten (i : Instr) : .run ∈ partsWritten i ↔ ∃ x, i = .ldVxK x := by
  cases i <;> simp [partsWritten]

theorem key_notMem_partsWritten (i : Instr) : .key ∉ partsWritten i := by
  cases i <;> simp [partsWritten]

/-! ## Unmatched words (R96) -/

/-- A word of group 0 that is neither CLS nor RET is the SYS row (R95). -/
theorem decodeWord_of_group0 {w : Word} (hop : opField w = 0x0#4) (cls : nnnField w ≠ 0x0E0#12)
    (ret : nnnField w ≠ 0x0EE#12) : decodeWord w = .ok (.sys (nnnField w)) := by
  simp [decodeWord, hop, decodeGroup0, cls, ret]

/-- Groups 5 and 9 miss with a low nibble other than 0 (R95). -/
theorem decodeIfZeroNibble_of_ne {w : Word} (h : nField w ≠ 0x0#4) (i : Instr) :
    decodeIfZeroNibble w i = .error (.miss w) := if_neg h

/-- Group 8 misses with a low nibble above 7 other than E (R95). -/
theorem decodeGroup8_of_mem {w : Word} (h : nField w ∈ [0x8#4, 0x9#4, 0xA#4, 0xB#4, 0xC#4, 0xD#4, 0xF#4]) :
    decodeGroup8 w = .error (.miss w) := by
  simp only [List.mem_cons, List.not_mem_nil, or_false] at h
  rcases h with h | h | h | h | h | h | h <;> simp [decodeGroup8, h]

/-- Group E misses with a low byte that no row names (R95). -/
theorem decodeGroupE_of_notMem {w : Word} (h : nnField w ∉ [0x9E#8, 0xA1#8]) : decodeGroupE w = .error (.miss w) := by
  unfold decodeGroupE
  split <;> simp_all

/-- Group F misses with a low byte that no row names (R95). -/
theorem decodeGroupF_of_notMem {w : Word}
    (h : nnField w ∉ [0x07#8, 0x0A#8, 0x15#8, 0x18#8, 0x1E#8, 0x29#8, 0x33#8, 0x55#8, 0x65#8]) :
    decodeGroupF w = .error (.miss w) := by
  unfold decodeGroupF
  split <;> simp_all

/-- The unmatched words of R96 as conditions on fields. -/
theorem unmatched_iff (w : Word) : Unmatched w ↔
    (opField w = 0x0#4 ∧ nnnField w ≠ 0x0E0#12 ∧ nnnField w ≠ 0x0EE#12) ∨
    (opField w = 0x5#4 ∧ nField w ≠ 0x0#4) ∨
    (opField w = 0x8#4 ∧ nField w ∈ [0x8#4, 0x9#4, 0xA#4, 0xB#4, 0xC#4, 0xD#4, 0xF#4]) ∨
    (opField w = 0x9#4 ∧ nField w ≠ 0x0#4) ∨
    (opField w = 0xE#4 ∧ nnField w ∉ [0x9E#8, 0xA1#8]) ∨
    (opField w = 0xF#4 ∧
      nnField w ∉ [0x07#8, 0x0A#8, 0x15#8, 0x18#8, 0x1E#8, 0x29#8, 0x33#8, 0x55#8, 0x65#8]) := by
  simp [Unmatched, ← BitVec.toNat_inj, opField_toNat, nnnField_toNat, nnField_toNat, nField_toNat]

/-- The unmatched words of R96 are no instruction's: a decode miss, or the SYS row (R95). -/
theorem decodeWord_of_unmatched {w : Word} (h : Unmatched w) :
    decodeWord w = .error (.miss w) ∨ ∃ nnn, decodeWord w = .ok (.sys nnn) := by
  rcases (unmatched_iff w).mp h with
    ⟨hop, cls, ret⟩ | ⟨hop, hn⟩ | ⟨hop, hn⟩ | ⟨hop, hn⟩ | ⟨hop, hn⟩ | ⟨hop, hn⟩
  · exact .inr ⟨_, decodeWord_of_group0 hop cls ret⟩
  · exact .inl (by simp [decodeWord, hop, decodeIfZeroNibble_of_ne hn])
  · exact .inl (by simp [decodeWord, hop, decodeGroup8_of_mem hn])
  · exact .inl (by simp [decodeWord, hop, decodeIfZeroNibble_of_ne hn])
  · exact .inl (by simp [decodeWord, hop, decodeGroupE_of_notMem hn])
  · exact .inl (by simp [decodeWord, hop, decodeGroupF_of_notMem hn])

/-- An unmatched word at `pc` makes the step a mere advance (R121, R130). -/
theorem step_of_unmatched {s : State} (hrun : s.run = .running) (hpc : PcFetchable s) (h : Unmatched (wordAtPc s)) :
    step s = .next s.advance := by
  rcases decodeWord_of_unmatched h with hd | ⟨nnn, hd⟩
  · exact step_of_miss s _ hrun (State.fetchInRange_of_fetchable hpc) (by rwa [State.fetchWord_eq_wordAtPc])
  · exact step_of_aboutToExecute ⟨hrun, hpc, hd⟩

/-! ## The program counter (R25) -/

/-- Running, an instruction that ends Faulted has raised, so `pc` has not moved (R222). -/
theorem exec_pc_of_faulted {i : Instr} {s t : State} (hrun : s.run = .running) (h : exec i s = .next t)
    (hf : t.run = .faulted) : t.pc = s.pc := by
  rcases exec_frame h with ⟨c, w, rfl⟩ | hi
  · rfl
  · by_cases hin : .run ∈ partsWritten i
    · obtain ⟨x, rfl⟩ := (run_mem_partsWritten i).mp hin
      cases h
      cases hf
    · have hsame : t.run = s.run := hi .run hin
      simp [hsame, hrun] at hf

/-- A store that raises no fault advances. -/
theorem State.storeCells_pc_of_run_ne {s : State} {cells : List (Addr × Byte)} (h : (s.storeCells cells).run ≠ .faulted) :
    (s.storeCells cells).pc = s.pc + 2#16 := by
  rcases s.storeCells_cases cells with ⟨_, c, _, _, _, _, hs⟩ | ⟨_, hs⟩
  · simp [hs] at h
  · rw [hs]
    rfl

/-- Settles O19: a fault keeps `pc` by the frame of `raise`; without one, each instruction's next state shows its class. -/
theorem pcAdvancesByClass : Obligations.PcAdvancesByClass := by
  unfold Obligations.PcAdvancesByClass
  refine ⟨fun i s t hrun h => ⟨exec_pc_of_faulted hrun h, fun hf => ?_⟩, fun s t hrun hpc hw h => ?_⟩
  · cases i with
    | ret =>
      rcases exec_ret_cases h with ⟨_, rfl⟩ | ⟨hsp, rfl⟩
      · exact absurd rfl hf
      · exact ⟨hsp, rfl⟩
    | call nnn =>
      rcases exec_call_cases h with ⟨_, rfl⟩ | ⟨_, rfl⟩
      · exact absurd rfl hf
      · rfl
    | ldBVx x =>
      cases h
      exact State.storeCells_pc_of_run_ne hf
    | ldMemVx x =>
      cases h
      exact State.storeCells_pc_of_run_ne hf
    | ldVxMem x =>
      cases h
      rw [State.writeRegs_eq]
      rfl
    | seVxNN | sneVxNN | seVxVy | sneVxVy | skpVx =>
      cases h
      simp
    | sknpVx x =>
      cases h
      cases hk : s.keyPressed (s.readReg x) <;> simp [hk]
    | _ =>
      cases h
      rfl
  · rw [step_of_unmatched hrun hpc hw] at h
    cases h
    rfl

/-! ## The timers (R28, R29) -/

/-- Settles O30: the frame of an operation leaves DT to the tick and to the one instruction that writes it. -/
theorem delayTimerIsWrittenReadAndTicked : Obligations.DelayTimerIsWrittenReadAndTicked := by
  unfold Obligations.DelayTimerIsWrittenReadAndTicked
  refine ⟨fun op s t noInit h => ?_, fun s x hx => ?_, fun s x hx => ?_, fun s => ?_⟩
  · rcases hostOp_frame noInit h (p := .dt) (by simp) with hsame | ⟨hop, i, hi, hin⟩ | ⟨hop, rfl, _⟩ | ⟨hin, _⟩
    · exact .inl hsame
    · obtain ⟨x, rfl⟩ := (dt_mem_partsWritten i).mp hin
      exact .inr (.inr ⟨hop, x, hi⟩)
    · by_cases hz : s.dt = 0x00#8
      · exact .inl (by simp [hz, tickDown])
      · exact .inr (.inl ⟨hop, hz⟩)
    · simp at hin
  · exact ⟨_, step_of_aboutToExecute hx, rfl⟩
  · exact ⟨_, step_of_aboutToExecute hx, by simp⟩
  · exact ⟨_, rfl, tickDown_toNat s.dt, s.tickTimers_changesOnly⟩

/-! ### ST is read by no instruction, and neither is KX (R29, R34) -/

/-- A store ignores ST and KX. -/
theorem State.storeCells_with_st_kx (s : State) (cells : List (Addr × Byte)) (v : Byte) (k : RegIdx) :
    { s with st := v, kx := k }.storeCells cells = { s.storeCells cells with st := v, kx := k } := by
  unfold State.storeCells
  split <;> rfl

/-- A store keeps ST and KX. -/
theorem State.storeCells_st_kx (s : State) (cells : List (Addr × Byte)) :
    (s.storeCells cells).st = s.st ∧ (s.storeCells cells).kx = s.kx := by
  rcases s.storeCells_frame cells with ⟨c, w, h⟩ | h
  · simp [h]
  · exact ⟨h .st (by simp), h .kx (by simp)⟩

/-- Register writes ignore ST and KX. -/
theorem State.writeRegs_with_st_kx (s : State) (cells : List (RegIdx × Byte)) (v : Byte) (k : RegIdx) :
    { s with st := v, kx := k }.writeRegs cells = { s.writeRegs cells with st := v, kx := k } := by
  induction cells generalizing s with
  | nil => rfl
  | cons c cs ih => exact ih (s.writeReg c.1 c.2)

/-- No instruction reads ST or KX: overwriting them before it changes nothing after it but them. -/
theorem exec_with_st_kx (i : Instr) (s : State) (v : Byte) (k : RegIdx) : ∃ t v' k', exec i s = .next t ∧
    exec i { s with st := v, kx := k } = .next { t with st := v', kx := k' } ∧
    (v = s.st → v' = t.st) ∧ (k = s.kx → k' = t.kx) := by
  cases i with
  | ret =>
    rcases Nat.eq_zero_or_pos s.sp.val with h | h
    · exact ⟨_, v, k, exec_ret_of_empty s h, exec_ret_of_empty _ h, id, id⟩
    · exact ⟨_, v, k, exec_ret_of_pos s h, exec_ret_of_pos { s with st := v, kx := k } h, id, id⟩
  | call nnn =>
    rcases Nat.lt_or_ge s.sp.val 16 with h | h
    · exact ⟨_, v, k, exec_call_of_lt s nnn h, exec_call_of_lt { s with st := v, kx := k } nnn h, id, id⟩
    · have h' : s.sp.val = 16 := by omega
      exact ⟨_, v, k, exec_call_of_full s nnn h', exec_call_of_full _ nnn h', id, id⟩
  | ldBVx x =>
    obtain ⟨hst, hkx⟩ := s.storeCells_st_kx (s.bcdCells (s.readReg x))
    exact ⟨_, v, k, rfl, congrArg Outcome.next (s.storeCells_with_st_kx _ v k), hst.symm ▸ id, hkx.symm ▸ id⟩
  | ldMemVx x =>
    obtain ⟨hst, hkx⟩ := s.storeCells_st_kx (s.blockCells x)
    exact ⟨_, v, k, rfl, congrArg Outcome.next (s.storeCells_with_st_kx _ v k), hst.symm ▸ id, hkx.symm ▸ id⟩
  | ldVxMem x =>
    refine ⟨_, v, k, rfl, congrArg (fun u => Outcome.next (State.advance u))
      (s.writeRegs_with_st_kx (s.blockLoads x) v k), ?_, ?_⟩
    · rw [State.writeRegs_eq]; exact id
    · rw [State.writeRegs_eq]; exact id
  | ldVxK x => exact ⟨_, v, x, rfl, rfl, id, fun _ => rfl⟩
  | ldSTVx x => exact ⟨_, s.readReg x, k, rfl, rfl, fun _ => rfl, id⟩
  | _ => exact ⟨_, v, k, rfl, rfl, id, id⟩

/-- Settles O31: the frame of an operation leaves ST to the tick and to the one instruction that writes it, and no
instruction reads it. -/
theorem soundTimerIsWrittenTickedAndReadByNoInstruction :
    Obligations.SoundTimerIsWrittenTickedAndReadByNoInstruction := by
  unfold Obligations.SoundTimerIsWrittenTickedAndReadByNoInstruction
  refine ⟨fun op s t noInit h => ?_, fun s x hx => ?_, fun s => ?_, fun i s v => ?_, fun s render => ?_⟩
  · rcases hostOp_frame noInit h (p := .st) (by simp) with hsame | ⟨hop, i, hi, hin⟩ | ⟨hop, rfl, _⟩ | ⟨hin, _⟩
    · exact .inl hsame
    · obtain ⟨x, rfl⟩ := (st_mem_partsWritten i).mp hin
      exact .inr (.inr ⟨hop, x, hi⟩)
    · by_cases hz : s.st = 0x00#8
      · exact .inl (by simp [hz, tickDown])
      · exact .inr (.inl ⟨hop, hz⟩)
    · simp at hin
  · exact ⟨_, step_of_aboutToExecute hx, rfl⟩
  · exact ⟨_, rfl, tickDown_toNat s.st⟩
  · obtain ⟨t, v', k', h, h', _, hk⟩ := exec_with_st_kx i s v s.kx
    obtain rfl := hk rfl
    exact ⟨t, v', h, h'⟩
  · exact ⟨rfl, by simp [State.outputs]⟩

/-! ## The key flags (R32) -/

/-- A byte that is a key number is pressed as that key's flag says. -/
theorem State.keyPressed_of_toNat_eq (s : State) {v : Byte} {k : KeyIdx} (h : v.toNat = k.toNat) :
    s.keyPressed v = s.readKey k := by
  simp [State.keyPressed, State.readKey, h, k.isLt]

/-- How `keyDown` resolves the wait does not look at the flags (R32). -/
theorem State.keyDown_with_key (s : State) (k : KeyIdx) (keys : Vector Bool 16) :
    { s with key := keys }.keyDown k = { s.keyDown k with key := keys.set k.toNat true k.isLt } := by
  by_cases h : s.run = .awaitingKey
  · rw [s.keyDown_of_awaitingKey k h, State.keyDown_of_awaitingKey { s with key := keys } k h]
    rfl
  · rw [s.keyDown_of_ne k h, State.keyDown_of_ne { s with key := keys } k h]
    rfl

/-- Settles O32: no instruction and no tick has KEY among its parts. -/
theorem onlyKeyEdgesWriteTheKeyFlags : Obligations.OnlyKeyEdgesWriteTheKeyFlags := by
  unfold Obligations.OnlyKeyEdgesWriteTheKeyFlags
  refine ⟨fun op s t noInit h => ?_, fun s x k hk => ⟨⟨_, rfl, ?_⟩, ⟨_, rfl, ?_⟩⟩,
    fun s k j => ⟨s.readKey_keyDown k j, s.readKey_keyUp k j⟩, fun s k keys => ?_⟩
  · rcases hostOp_frame noInit h (p := .key) (by simp) with hsame | ⟨_, i, _, hin⟩ | ⟨_, _, hin⟩ | ⟨_, hedge⟩
    · exact .inl hsame
    · exact absurd hin (key_notMem_partsWritten i)
    · simp at hin
    · exact .inr hedge
  · rw [State.skipIf_pc, s.keyPressed_of_toNat_eq hk]
  · rw [State.skipIf_pc, s.keyPressed_of_toNat_eq hk]
    cases s.readKey k <;> rfl
  · rw [s.keyDown_with_key k keys]
    exact ⟨rfl, rfl⟩

/-! ## The wait register (R34) -/

/-- A step ignores KX: overwriting it before the step changes nothing after it but KX. -/
theorem step_with_kx (s : State) (k : RegIdx) :
    ∃ t k', step s = .next t ∧ step { s with kx := k } = .next { t with kx := k' } := by
  by_cases hrun : s.run = .running
  · rcases hr : s.fetchInRange
    · exact ⟨_, k, step_of_outOfRange s hrun hr, step_of_outOfRange { s with kx := k } hrun hr⟩
    · rcases hd : decodeWord s.fetchWord with e | i
      · exact ⟨_, k, step_of_miss s e hrun hr hd, step_of_miss { s with kx := k } e hrun hr hd⟩
      · obtain ⟨t, v', k', h, h', hv, _⟩ := exec_with_st_kx i s s.st k
        obtain rfl := hv rfl
        exact ⟨t, k', (step_of_decoded s i hrun hr hd).trans h,
          (step_of_decoded { s with kx := k } i hrun hr hd).trans h'⟩
  · exact ⟨s, k, step_of_run_ne hrun, step_of_run_ne (s := { s with kx := k }) hrun⟩

/-- `init` ignores KX. -/
theorem State.init_with_kx (s : State) (image : List Byte) (k : RegIdx) :
    ∃ k', { s with kx := k }.init image = { s.init image with kx := k' } := by
  rcases Nat.lt_or_ge 3584 image.length with h | h
  · exact ⟨k, by simp [State.init, State.initial_of_gt h]⟩
  · exact ⟨State.reset.kx, by simp [State.init, State.initial_of_le h]⟩

/-- Settles O34: operation by operation, KX is read only by the `keyDown` that resolves the wait. -/
theorem waitRegisterIsDeadOutsideTheWait : Obligations.WaitRegisterIsDeadOutsideTheWait := by
  unfold Obligations.WaitRegisterIsDeadOutsideTheWait
  refine ⟨fun op s v hrun => ?_, fun s x hx => ⟨_, step_of_aboutToExecute hx, rfl⟩, fun s k hrun => ?_⟩
  · cases op with
    | step => exact step_with_kx s v
    | tickTimers => exact ⟨_, v, rfl, rfl⟩
    | keyDown k =>
      exact ⟨_, v, congrArg Outcome.next (s.keyDown_of_ne k hrun), congrArg Outcome.next (State.keyDown_of_ne _ k hrun)⟩
    | keyUp k => exact ⟨_, v, rfl, rfl⟩
    | init image =>
      obtain ⟨k', h⟩ := s.init_with_kx image v
      exact ⟨_, k', rfl, congrArg Outcome.next h⟩
  · have hread : (s.keyDown k).readReg s.kx = k.setWidth 8 := by
      rw [s.keyDown_of_awaitingKey k hrun]
      exact (State.readReg_writeReg _ _ _ _).trans (if_pos rfl)
    have hk := k.isLt
    rw [hread, BitVec.toNat_setWidth]
    omega

end Sys2Proof.Machine

/-! # Proofs of the family 20_memory.md: the stack and the framebuffer are no part of main memory -/

namespace Sys2Proof.Machine

open Host (Outcome)

/-- An instruction keeps every part it does not write, the run state and the latch apart (R20, R222). -/
theorem exec_same_of_notMem {i : Instr} {s t : State} (h : exec i s = .next t) {p : Part}
    (hfault : p ∉ [Part.run, .fault]) (hp : p ∉ partsWritten i) : p.same s t := by
  rcases exec_frame h with ⟨c, w, rfl⟩ | hi
  · exact s.raise_changesOnly c w p hfault
  · exact hi p hp

/-- A store that raises no fault writes `pc` and memory only (R20). -/
theorem partsWritten_of_store {i : Instr} {x : RegIdx} (h : i ∈ [Instr.ldBVx x, Instr.ldMemVx x]) :
    partsWritten i = [.pc, .mem] := by
  simp only [List.mem_cons, List.not_mem_nil, or_false] at h
  rcases h with rfl | rfl <;> rfl

/-- Register writes ignore the stack and the framebuffer. -/
theorem State.writeRegs_with_stack_sp_fb (s : State) (cells : List (RegIdx × Byte)) (stack : Vector Word 16)
    (sp : Fin 17) (fb : Framebuffer) :
    { s with stack := stack, sp := sp, fb := fb }.writeRegs cells =
      { s.writeRegs cells with stack := stack, sp := sp, fb := fb } := by
  induction cells generalizing s with
  | nil => rfl
  | cons c cs ih => exact ih (s.writeReg c.1 c.2)

/-- Settles O33: the frame of a store leaves out the stack and the framebuffer, and the registers a load writes are
computed from `I` and memory alone. -/
theorem stackAndFramebufferAreIsolatedFromMemory : Obligations.StackAndFramebufferAreIsolatedFromMemory := by
  unfold Obligations.StackAndFramebufferAreIsolatedFromMemory
  refine ⟨fun s t x i hi h => ?_, fun s x stack sp fb => ⟨_, exec_ldVxMem s x, ?_⟩⟩
  · have keeps {p : Part} (hfault : p ∉ [Part.run, .fault]) (hp : p ∉ [Part.pc, .mem]) : p.same s t :=
      exec_same_of_notMem h hfault (partsWritten_of_store hi ▸ hp)
    exact ⟨keeps (p := .stack) (by simp) (by simp), keeps (p := .sp) (by simp) (by simp),
      keeps (p := .fb) (by simp) (by simp)⟩
  · exact congrArg (fun u => Outcome.next (State.advance u))
      (s.writeRegs_with_stack_sp_fb (s.blockLoads x) stack sp fb)

end Sys2Proof.Machine

/-! # Proofs of the family 30_encoding.md: the fields of a word, and the word a step executes -/

namespace Sys2Proof

/-- The fields Y and N are adjacent and make up NN (R91). -/
theorem nnField_eq_y_append_n (w : Word) : nnField w = yField w ++ nField w :=
  (BitVec.extractLsb'_append_extractLsb'_eq_extractLsb' (x := w) (start₁ := 0) (len₁ := 4) (len₂ := 4) rfl).symm

/-- The fields X and NN are adjacent and make up NNN (R91). -/
theorem nnnField_eq_x_append_nn (w : Word) : nnnField w = xField w ++ nnField w :=
  (BitVec.extractLsb'_append_extractLsb'_eq_extractLsb' (x := w) (start₁ := 0) (len₁ := 8) (len₂ := 4) rfl).symm

/-- The fields X, Y and N are adjacent and make up NNN (R91). -/
theorem nnnField_eq_x_append_y_append_n (w : Word) : nnnField w = xField w ++ yField w ++ nField w := by
  rw [nnnField_eq_x_append_nn, nnField_eq_y_append_n, BitVec.append_assoc, BitVec.cast_eq]

/-- Settles O7: each field as a number, and the two overlaps by joining adjacent fields. -/
theorem decoderFieldsAreAtTheirBits : Obligations.DecoderFieldsAreAtTheirBits := by
  unfold Obligations.DecoderFieldsAreAtTheirBits
  exact fun w => ⟨opField_toNat w, nnnField_toNat w, nnField_toNat w, xField_toNat w, yField_toNat w, nField_toNat w,
    nnnField_eq_x_append_y_append_n w, nnField_eq_y_append_n w⟩

end Sys2Proof

namespace Sys2Proof.Machine

/-- Settles O8: the hypotheses are those of a state about to execute `i`. -/
theorem stepExecutesTheInstructionAtPc : Obligations.StepExecutesTheInstructionAtPc := by
  unfold Obligations.StepExecutesTheInstructionAtPc
  exact fun s i hrun hpc hdec => step_of_aboutToExecute ⟨hrun, hpc, hdec⟩

end Sys2Proof.Machine

/-! # Proofs of the family 40_control.md: the decode miss, the jump and the compare skips -/

namespace Sys2Proof

/-- Group 1 is JP (R94, R123). -/
theorem decodeWord_jp (nnn : Addr) : decodeWord (0x1#4 ++ nnn) = .ok (.jp nnn) := by
  simp [decodeWord]

/-- Group 3 is SE Vx, NN (R94, R125). -/
theorem decodeWord_seVxNN (x : RegIdx) (nn : Byte) : decodeWord (0x3#4 ++ x ++ nn) = .ok (.seVxNN x nn) := by
  simp [decodeWord]

/-- Group 4 is SNE Vx, NN (R94, R126). -/
theorem decodeWord_sneVxNN (x : RegIdx) (nn : Byte) : decodeWord (0x4#4 ++ x ++ nn) = .ok (.sneVxNN x nn) := by
  simp [decodeWord]

/-- Group 5 is SE Vx, Vy exactly when the low nibble is 0 (R95, R127). -/
theorem decodeWord_group5 (x y : RegIdx) (n : BitVec 4) : decodeWord (0x5#4 ++ x ++ y ++ n) =
    if n = 0x0#4 then .ok (.seVxVy x y) else .error (.miss (0x5#4 ++ x ++ y ++ n)) := by
  simp [decodeWord, decodeIfZeroNibble]

/-- Group 9 is SNE Vx, Vy exactly when the low nibble is 0 (R95, R128). -/
theorem decodeWord_group9 (x y : RegIdx) (n : BitVec 4) : decodeWord (0x9#4 ++ x ++ y ++ n) =
    if n = 0x0#4 then .ok (.sneVxVy x y) else .error (.miss (0x9#4 ++ x ++ y ++ n)) := by
  simp [decodeWord, decodeIfZeroNibble]

end Sys2Proof

namespace Sys2Proof.Machine

/-! ## The decode miss (R130) -/

/-- A step that is about to execute `i` returns what the rule of `i` leaves in `render` (R201). -/
theorem State.stepRender_of_aboutToExecute {s : State} {i : Instr} (h : AboutToExecute s i) :
    s.stepRender = execRender i := by
  obtain ⟨hrun, hpc, hdec⟩ := h
  simp [State.stepRender, hrun, State.fetchInRange_of_fetchable hpc, State.fetchWord_eq_wordAtPc, hdec]

/-- A step on a decode miss returns false (R201). -/
theorem State.stepRender_of_miss {s : State} {e : DecodeReject} (hdec : decodeWord (wordAtPc s) = .error e) :
    s.stepRender = false := by
  unfold State.stepRender
  simp only [State.fetchWord_eq_wordAtPc, hdec, ite_self]
  cases s.run <;> rfl

/-- An unmatched word at `pc` makes the step return false (R121, R130). -/
theorem State.stepRender_of_unmatched {s : State} (hrun : s.run = .running) (hpc : PcFetchable s)
    (h : Unmatched (wordAtPc s)) : s.stepRender = false := by
  rcases decodeWord_of_unmatched h with hd | ⟨nnn, hd⟩
  · exact State.stepRender_of_miss hd
  · exact State.stepRender_of_aboutToExecute ⟨hrun, hpc, hd⟩

/-- Where a fetch is possible, `pc + 2` does not wrap (R24, R70). -/
theorem State.advance_pc_toNat {s : State} (hpc : PcFetchable s) : s.advance.pc.toNat = s.pc.toNat + 2 := by
  obtain ⟨_, hle⟩ := hpc
  rw [State.advance_pc, BitVec.toNat_add, BitVec.toNat_ofNat]
  omega

/-- Settles O9: the step is a mere advance, and an advance changes `pc` only. -/
theorem unmatchedWordsOnlyAdvancePc : Obligations.UnmatchedWordsOnlyAdvancePc := by
  unfold Obligations.UnmatchedWordsOnlyAdvancePc
  exact fun s hrun hpc hw => ⟨s.advance, step_of_unmatched hrun hpc hw, State.advance_pc_toNat hpc,
    s.advance_changesOnly, State.stepRender_of_unmatched hrun hpc hw⟩

/-! ## The jump and the compare skips (R123, R125 to R128) -/

theorem State.setPc_changesOnly (s : State) (w : Word) : ChangesOnly [.pc] s (s.setPc w) := by simp [changesOnly_iff]

theorem State.skipIf_changesOnly (s : State) (cond : Bool) : ChangesOnly [.pc] s (s.skipIf cond) :=
  s.setPc_changesOnly _

theorem zextAddr_toNat (nnn : Addr) : (zextAddr nnn).toNat = nnn.toNat :=
  BitVec.toNat_setWidth_of_le (by omega)

/-- Running with `pc` outside the fetch range, the step raises `FetchOutOfRange` (R70, R201). -/
theorem step_of_not_fetchable {s : State} (hrun : s.run = .running) (hpc : ¬ PcFetchable s) :
    ∃ u, step s = .next u ∧ u.run = .faulted ∧ u.fault.code = .fetchOutOfRange := by
  have hr : s.fetchInRange = false := Bool.eq_false_iff.mpr fun h => hpc (s.fetchInRange_iff.mp h)
  exact ⟨_, step_of_outOfRange s hrun hr, rfl, rfl⟩

/-- Settles O12: JP is one `setPc`, and its target decides whether the next step can fetch. -/
theorem jumpSetsPcToItsTarget : Obligations.JumpSetsPcToItsTarget := by
  unfold Obligations.JumpSetsPcToItsTarget
  refine fun s nnn => ⟨decodeWord_jp nnn, _, exec_jp s nnn, zextAddr_toNat nnn, s.setPc_changesOnly _,
    fun hself => ?_, fun hrun hout => step_of_not_fetchable hrun fun hpc => ?_⟩
  · have htarget : zextAddr nnn = s.pc := BitVec.eq_of_toNat_eq ((zextAddr_toNat nnn).trans hself.symm)
    rw [htarget]
    rfl
  · rw [PcFetchable, State.setPc_pc, zextAddr_toNat] at hpc
    omega

/-- A skip taken from the last address of the fetch range ends above it (R25, R70). -/
theorem State.skipIf_pc_of_lastFetch {s : State} {cond : Bool} (hpc : s.pc = 0x0FFE#16) (hc : cond = true) :
    (s.skipIf cond).pc = 0x1002#16 := by
  rw [State.skipIf_pc, if_pos hc, hpc]
  rfl

/-- Settles O16: each of the four is one `skipIf` of its own comparison. -/
theorem skipsAdvanceByFourOrTwo : Obligations.SkipsAdvanceByFourOrTwo := by
  unfold Obligations.SkipsAdvanceByFourOrTwo
  refine fun s x y nn => ⟨fun n hn => ⟨?_, ?_⟩, fun p hp => ?_⟩
  · rw [decodeWord_group5, if_neg hn]
  · rw [decodeWord_group9, if_neg hn]
  · have skips : decodeWord p.1 = .ok p.2.1 ∧ exec p.2.1 s = .next (s.skipIf p.2.2) := by
      simp only [List.mem_cons, List.not_mem_nil, or_false] at hp
      rcases hp with rfl | rfl | rfl | rfl
      · exact ⟨decodeWord_seVxNN x nn, exec_seVxNN s x nn⟩
      · exact ⟨decodeWord_sneVxNN x nn, by simp [exec_sneVxNN, bne, beq_eq_decide]⟩
      · exact ⟨decodeWord_group5 x y 0x0#4, exec_seVxVy s x y⟩
      · exact ⟨decodeWord_group9 x y 0x0#4, by simp [exec_sneVxVy, bne, beq_eq_decide]⟩
    obtain ⟨hd, hx⟩ := skips
    refine ⟨hd, _, hx, s.skipIf_pc _, s.skipIf_changesOnly _, fun hrun hpc hc => ?_⟩
    have hend := State.skipIf_pc_of_lastFetch hpc hc
    refine ⟨hend, step_of_not_fetchable hrun ?_⟩
    rw [PcFetchable, hend]
    decide

end Sys2Proof.Machine

/-! # Proofs of the family 41_alu.md: the load of an immediate -/

namespace Sys2Proof

/-- Group 6 is LD Vx, NN (R94, R140). -/
theorem decodeWord_ldVxNN (x : RegIdx) (nn : Byte) : decodeWord (0x6#4 ++ x ++ nn) = .ok (.ldVxNN x nn) := by
  simp [decodeWord]

end Sys2Proof

namespace Sys2Proof.Machine

/-- The frame of an instruction that writes one register and advances. -/
theorem State.writeReg_advance_changesOnly (s : State) (x : RegIdx) (v : Byte) :
    ChangesOnly [.regs, .pc] s (s.writeReg x v).advance := by simp [changesOnly_iff]

/-- Settles O21: LD Vx, NN is one register write, of register 15 like any other, and an advance. -/
theorem loadImmediateWritesItsRegister : Obligations.LoadImmediateWritesItsRegister := by
  unfold Obligations.LoadImmediateWritesItsRegister
  exact fun s x nn => ⟨decodeWord_ldVxNN x nn, _, exec_ldVxNN s x nn, fun r => s.readReg_writeReg x r nn,
    State.advance_pc _, s.writeReg_advance_changesOnly x nn⟩

end Sys2Proof.Machine

/-! # Proofs of the family 43_display.md: the clearing of the screen -/

namespace Sys2Proof

/-- The word 0x00E0 is CLS and not a SYS (R94, R180). -/
theorem decodeWord_cls : decodeWord 0x00E0#16 = .ok .cls := by decide

end Sys2Proof

namespace Sys2Proof.Machine

/-- The frame of an instruction that replaces the framebuffer and advances. -/
theorem State.with_fb_advance_changesOnly (s : State) (fb : Framebuffer) :
    ChangesOnly [.fb, .pc] s { s with fb := fb }.advance := by
  simp [changesOnly_iff, State.readReg, State.readByte]

/-- What DRW draws does not depend on `pc` (R181): it reads the framebuffer, the registers, `I` and memory. -/
theorem exec_drwVxVyN_fb_advance (s : State) (x y : RegIdx) (n : BitVec 4) :
    ∃ u v, exec (.drwVxVyN x y n) s.advance = .next u ∧ exec (.drwVxVyN x y n) s = .next v ∧ u.fb = v.fb :=
  ⟨_, _, exec_drwVxVyN s.advance x y n, exec_drwVxVyN s x y n, rfl⟩

/-- Settles O43: CLS puts the blank framebuffer and advances, and a DRW after it differs from one on a blank screen
by that advance alone. -/
theorem clearScreenBlanksEveryPixel : Obligations.ClearScreenBlanksEveryPixel := by
  unfold Obligations.ClearScreenBlanksEveryPixel
  exact ⟨decodeWord_cls, fun s => ⟨_, exec_cls s, Framebuffer.pixel_blank, State.advance_pc _,
    s.with_fb_advance_changesOnly _, State.stepRender_of_aboutToExecute, exec_drwVxVyN_fb_advance _⟩⟩

end Sys2Proof.Machine

/-! # Proofs of the family 45_host_operations.md: the release of a key -/

namespace Sys2Proof.Machine

/-- The transition of `keyUp` is total and does not look at the run state (R200, R204). -/
theorem hostOp_keyUp (s : State) (k : KeyIdx) : hostOp (.keyUp k) s = .next (s.keyUp k) := rfl

/-- Settles O49: `keyUp` is one write of a key flag in every run state, read back by the rule for that write; its frame
leaves out the key flags alone. -/
theorem keyUpClearsItsFlagOnly : Obligations.KeyUpClearsItsFlagOnly := by
  unfold Obligations.KeyUpClearsItsFlagOnly
  exact fun s k => ⟨s.keyUp k, hostOp_keyUp s k, s.readKey_keyUp k, s.keyUp_changesOnly k⟩

end Sys2Proof.Machine

/-! # Proofs of the family 60_exceptions.md: no host event redirects control -/

namespace Sys2Proof.Machine

theorem State.setKey_changesOnly (s : State) (k : KeyIdx) (b : Bool) : ChangesOnly [.key] s (s.setKey k b) := by
  simp [changesOnly_iff]

/-- Outside the wait a `keyDown` touches the key flags alone (R203). -/
theorem State.keyDown_changesOnly_of_ne (s : State) (k : KeyIdx) (h : s.run ≠ .awaitingKey) :
    ChangesOnly [.key] s (s.keyDown k) := by
  rw [s.keyDown_of_ne k h]
  exact s.setKey_changesOnly k true

/-- The one register a `keyDown` may write is the one KX names (R203). -/
theorem State.readReg_keyDown_of_ne (s : State) (k : KeyIdx) {r : RegIdx} (hr : r ≠ s.kx) :
    (s.keyDown k).readReg r = s.readReg r := by
  by_cases h : s.run = .awaitingKey
  · rw [s.keyDown_of_awaitingKey k h]
    exact ((s.setKey k true).readReg_writeReg s.kx r _).trans (if_neg hr)
  · exact s.keyDown_changesOnly_of_ne k h .regs (by decide) r

/-- Settles O50: the frames of the three events leave `pc` out, and `keyDown` is sharpened by its two cases, in the
wait and outside it. -/
theorem hostEventsNeverChangePc : Obligations.HostEventsNeverChangePc := by
  unfold Obligations.HostEventsNeverChangePc
  exact fun s k => ⟨s.tickTimers_changesOnly, s.keyUp_changesOnly k, (s.keyDown_changesOnly k).mono (by decide),
    s.keyDown_changesOnly_of_ne k, fun _ hr => s.readReg_keyDown_of_ne k hr⟩

end Sys2Proof.Machine

/-! # Proofs of the remaining statements: encoding (R90 to R101 of 30_encoding.md) -/

namespace Sys2Proof

/-! ## Decoding what was encoded -/

/-- The word of a well-formed instruction decodes to it (R94, R95). -/
theorem decodeWord_encode {i : Instr} (h : i.wellFormed = true) : decodeWord (encode i) = .ok i := by
  cases i with
  | sys nnn =>
    have hne : nnn ≠ 0x0E0#12 ∧ nnn ≠ 0x0EE#12 := by simpa [Instr.wellFormed, sysTargetAllowed] using h
    simp [encode, decodeWord, decodeGroup0, hne]
  | cls => decide
  | ret => decide
  | seVxVy | sneVxVy => simp [encode, decodeWord, decodeIfZeroNibble]
  | ldVxVy | orVxVy | andVxVy | xorVxVy | addVxVy | subVxVy | shrVx | subnVxVy | shlVx =>
    simp [encode, decodeWord, decodeGroup8]
  | skpVx | sknpVx => simp [encode, decodeWord, decodeGroupE]
  | ldVxDT | ldVxK | ldDTVx | ldSTVx | addIVx | ldFVx | ldBVx | ldMemVx | ldVxMem =>
    simp [encode, decodeWord, decodeGroupF]
  | _ => simp [encode, decodeWord]

/-- A word laid out as two bytes decodes like the word (R68, R90). -/
theorem decodeBytes_of_decodeWord {w : Word} {i : Instr} (h : decodeWord w = .ok i) (rest : List Byte) :
    decodeBytes (firstByte w :: secondByte w :: rest) = .ok (i, rest) := by
  simp [decodeBytes, h]

/-- Settles O1: constructor by constructor on words, and carried over to bytes. -/
theorem decodeOfEncodeIsIdentity : Obligations.DecodeOfEncodeIsIdentity := by
  unfold Obligations.DecodeOfEncodeIsIdentity
  exact fun i hi => ⟨decodeWord_encode hi, decodeBytes_of_decodeWord (decodeWord_encode hi)⟩

/-! ## Encoding what was decoded -/

section
variable {w : Word} {i : Instr}

theorem encode_decodeGroup0 (hop : opField w = 0x0#4) :
    encode (decodeGroup0 w) = w ∧ (decodeGroup0 w).wellFormed = true := by
  have hw := word_of_op_nnn w
  rw [hop] at hw
  unfold decodeGroup0
  split
  · next cls => exact ⟨by rw [← hw, cls]; rfl, rfl⟩
  · split
    · next ret => exact ⟨by rw [← hw, ret]; rfl, rfl⟩
    · next cls ret => exact ⟨hw, by simp [Instr.wellFormed, sysTargetAllowed, cls, ret]⟩

theorem encode_of_decodeIfZeroNibble {j : Instr} (hj : opField w ++ xField w ++ yField w ++ 0x0#4 = encode j)
    (wf : j.wellFormed = true) (h : decodeIfZeroNibble w j = .ok i) : encode i = w ∧ i.wellFormed = true := by
  unfold decodeIfZeroNibble at h
  split at h
  · next hn =>
    cases h
    exact ⟨by rw [← hj, ← hn, word_of_nibbles], wf⟩
  · cases h

theorem encode_of_decodeGroup8 (hop : opField w = 0x8#4) (h : decodeGroup8 w = .ok i) :
    encode i = w ∧ i.wellFormed = true := by
  have hw := word_of_nibbles w
  unfold decodeGroup8 at h
  split at h <;> cases h <;> next hn => exact ⟨by rw [hop, hn] at hw; exact hw, rfl⟩

theorem encode_of_decodeGroupE (hop : opField w = 0xE#4) (h : decodeGroupE w = .ok i) :
    encode i = w ∧ i.wellFormed = true := by
  have hw := word_of_op_x_nn w
  unfold decodeGroupE at h
  split at h <;> cases h <;> next hn => exact ⟨by rw [hop, hn] at hw; exact hw, rfl⟩

theorem encode_of_decodeGroupF (hop : opField w = 0xF#4) (h : decodeGroupF w = .ok i) :
    encode i = w ∧ i.wellFormed = true := by
  have hw := word_of_op_x_nn w
  unfold decodeGroupF at h
  split at h <;> cases h <;> next hn => exact ⟨by rw [hop, hn] at hw; exact hw, rfl⟩

/-- What the decoder reads is well-formed and encodes to the word it was read from (R94, R95). -/
theorem encode_of_decodeWord (h : decodeWord w = .ok i) : encode i = w ∧ i.wellFormed = true := by
  have hnnn := word_of_op_nnn w
  have hnn := word_of_op_x_nn w
  have hn := word_of_nibbles w
  unfold decodeWord at h
  split at h
  case h_1 hop => cases h; exact encode_decodeGroup0 hop
  case h_6 hop => exact encode_of_decodeIfZeroNibble (by rw [hop]; rfl) rfl h
  case h_9 hop => exact encode_of_decodeGroup8 hop h
  case h_10 hop => exact encode_of_decodeIfZeroNibble (by rw [hop]; rfl) rfl h
  case h_15 hop => exact encode_of_decodeGroupE hop h
  case h_16 hop => exact encode_of_decodeGroupF hop h
  case h_17 => cases h
  case h_14 hop => cases h; exact ⟨by rw [hop] at hn; exact hn, rfl⟩
  case h_2 hop | h_3 hop | h_11 hop | h_12 hop => cases h; exact ⟨by rw [hop] at hnnn; exact hnnn, rfl⟩
  case h_4 hop | h_5 hop | h_7 hop | h_8 hop | h_13 hop => cases h; exact ⟨by rw [hop] at hnn; exact hnn, rfl⟩

end

/-- Settles O2: the decoder inverted group by group, each word put together again from its fields. -/
theorem encodeOfDecodeIsIdentity : Obligations.EncodeOfDecodeIsIdentity := by
  unfold Obligations.EncodeOfDecodeIsIdentity
  exact fun w i => encode_of_decodeWord

/-! ## Misses and the opcode table -/

section
variable {w : Word} {e : DecodeReject}

theorem decodeIfZeroNibble_error {i : Instr} (h : decodeIfZeroNibble w i = .error e) :
    e = .miss w ∧ nField w ≠ 0x0#4 := by
  unfold decodeIfZeroNibble at h
  split at h
  · cases h
  · next hn => cases h; exact ⟨rfl, hn⟩

theorem decodeGroup8_error (h : decodeGroup8 w = .error e) :
    e = .miss w ∧ nField w ∈ [0x8#4, 0x9#4, 0xA#4, 0xB#4, 0xC#4, 0xD#4, 0xF#4] := by
  unfold decodeGroup8 at h
  split at h <;> cases h
  refine ⟨rfl, ?_⟩
  generalize nField w = n at *
  revert n
  decide

theorem decodeGroupE_error (h : decodeGroupE w = .error e) : e = .miss w ∧ nnField w ∉ [0x9E#8, 0xA1#8] := by
  unfold decodeGroupE at h
  split at h <;> cases h
  simp_all

theorem decodeGroupF_error (h : decodeGroupF w = .error e) : e = .miss w ∧
    nnField w ∉ [0x07#8, 0x0A#8, 0x15#8, 0x18#8, 0x1E#8, 0x29#8, 0x33#8, 0x55#8, 0x65#8] := by
  unfold decodeGroupF at h
  split at h <;> cases h
  simp_all

/-- A decode miss names its word, which is an unmatched one (R95, R96). -/
theorem decodeWord_error (h : decodeWord w = .error e) : e = .miss w ∧ Machine.Unmatched w := by
  rw [Machine.unmatched_iff]
  unfold decodeWord at h
  split at h
  case h_6 hop => obtain ⟨he, hn⟩ := decodeIfZeroNibble_error h; simp [he, hop, hn]
  case h_9 hop => obtain ⟨he, hn⟩ := decodeGroup8_error h; exact ⟨he, .inr (.inr (.inl ⟨hop, hn⟩))⟩
  case h_10 hop => obtain ⟨he, hn⟩ := decodeIfZeroNibble_error h; simp [he, hop, hn]
  case h_15 hop => obtain ⟨he, hn⟩ := decodeGroupE_error h; simpa [he, hop] using hn
  case h_16 hop => obtain ⟨he, hn⟩ := decodeGroupF_error h; simpa [he, hop] using hn
  case h_17 hop =>
    exfalso
    generalize opField w = op at *
    revert op
    decide
  all_goals cases h

end

/-- Settles O5: a miss is unmatched by the decoder's groups, and a SYS by the word it encodes to. -/
theorem unmatchedWordsAreThoseOfTheTable : Obligations.UnmatchedWordsAreThoseOfTheTable := by
  unfold Obligations.UnmatchedWordsAreThoseOfTheTable
  refine fun w => ⟨Machine.decodeWord_of_unmatched, ?_⟩
  rintro (h | ⟨nnn, h⟩)
  · exact (decodeWord_error h).2
  · obtain ⟨rfl, wf⟩ := encode_of_decodeWord h
    rw [Machine.unmatched_iff]
    simpa [encode, Instr.wellFormed, sysTargetAllowed] using wf

/-! ### The rows (R94, R101) -/

/-- The row of SYS, which R101 tries last. -/
def sysRow : OpcodeRow := ⟨1, 0xF000#16, 0x0000#16⟩

theorem row_mem_opcodeTable (i : Instr) : i.row ∈ opcodeTable := by
  cases i <;> simp [opcodeTable, rowRepresentatives, Instr.row]

theorem exists_row_of_mem_opcodeTable {r : OpcodeRow} (h : r ∈ opcodeTable) : ∃ i : Instr, i.row = r := by
  obtain ⟨i, _, hi⟩ := List.mem_map.mp h
  exact ⟨i, hi⟩

/-- A word that selects a row decodes to an instruction of that row, but where SYS meets CLS or RET (R94, R95). -/
theorem row_of_selects {w : Word} {i : Instr} (h : i.row.selects w = true) :
    (decodeWord w).map Instr.row = .ok i.row ∨
      (i.row = sysRow ∧ (decodeWord w = .ok .cls ∨ decodeWord w = .ok .ret)) := by
  cases i with
  | sys nnn =>
    have hop : opField w = 0x0#4 := by simpa [OpcodeRow.selects, Instr.row, select_F000, opField] using h
    by_cases cls : nnnField w = 0x0E0#12
    · exact .inr ⟨rfl, .inl (by simp [decodeWord, hop, decodeGroup0, cls])⟩
    · by_cases ret : nnnField w = 0x0EE#12
      · exact .inr ⟨rfl, .inr (by simp [decodeWord, hop, decodeGroup0, ret])⟩
      · exact .inl (by rw [Machine.decodeWord_of_group0 hop cls ret]; rfl)
  | cls =>
    have hw : opField w = 0x0#4 ∧ nnnField w = 0x0E0#12 := by
      simpa [OpcodeRow.selects, Instr.row, select_FFFF, opField, nnnField] using h
    exact .inl (by simp [decodeWord, decodeGroup0, hw, Except.map])
  | ret =>
    have hw : opField w = 0x0#4 ∧ nnnField w = 0x0EE#12 := by
      simpa [OpcodeRow.selects, Instr.row, select_FFFF, opField, nnnField] using h
    exact .inl (by simp [decodeWord, decodeGroup0, hw, Except.map])
  | seVxVy | sneVxVy =>
    refine .inl ?_
    simp_all [OpcodeRow.selects, select_F00F, decodeWord, decodeIfZeroNibble, opField, nField, Except.map, Instr.row]
  | ldVxVy | orVxVy | andVxVy | xorVxVy | addVxVy | subVxVy | shrVx | subnVxVy | shlVx =>
    refine .inl ?_
    simp_all [OpcodeRow.selects, select_F00F, decodeWord, decodeGroup8, opField, nField, Except.map, Instr.row]
  | skpVx | sknpVx =>
    refine .inl ?_
    simp_all [OpcodeRow.selects, select_F0FF, decodeWord, decodeGroupE, opField, nnField, Except.map, Instr.row]
  | ldVxDT | ldVxK | ldDTVx | ldSTVx | addIVx | ldFVx | ldBVx | ldMemVx | ldVxMem =>
    refine .inl ?_
    simp_all [OpcodeRow.selects, select_F0FF, decodeWord, decodeGroupF, opField, nnField, Except.map, Instr.row]
  | _ =>
    refine .inl ?_
    simp_all [OpcodeRow.selects, select_F000, decodeWord, opField, Except.map, Instr.row]

open Laws in
/-- The fixed bits of every instruction's word are those of its row (R94). -/
theorem encode_and_mask : ∀ i : Instr, EncodeFixedBits.Statement i
  | .sys nnn => EncodeFixedBits.sys nnn
  | .cls => EncodeFixedBits.cls
  | .ret => EncodeFixedBits.ret
  | .jp nnn => EncodeFixedBits.jp nnn
  | .call nnn => EncodeFixedBits.call nnn
  | .seVxNN x nn => EncodeFixedBits.seVxNN x nn
  | .sneVxNN x nn => EncodeFixedBits.sneVxNN x nn
  | .seVxVy x y => EncodeFixedBits.seVxVy x y
  | .ldVxNN x nn => EncodeFixedBits.ldVxNN x nn
  | .addVxNN x nn => EncodeFixedBits.addVxNN x nn
  | .ldVxVy x y => EncodeFixedBits.ldVxVy x y
  | .orVxVy x y => EncodeFixedBits.orVxVy x y
  | .andVxVy x y => EncodeFixedBits.andVxVy x y
  | .xorVxVy x y => EncodeFixedBits.xorVxVy x y
  | .addVxVy x y => EncodeFixedBits.addVxVy x y
  | .subVxVy x y => EncodeFixedBits.subVxVy x y
  | .shrVx x y => EncodeFixedBits.shrVx x y
  | .subnVxVy x y => EncodeFixedBits.subnVxVy x y
  | .shlVx x y => EncodeFixedBits.shlVx x y
  | .sneVxVy x y => EncodeFixedBits.sneVxVy x y
  | .ldINNN nnn => EncodeFixedBits.ldINNN nnn
  | .jpV0NNN nnn => EncodeFixedBits.jpV0NNN nnn
  | .rndVxNN x nn => EncodeFixedBits.rndVxNN x nn
  | .drwVxVyN x y n => EncodeFixedBits.drwVxVyN x y n
  | .skpVx x => EncodeFixedBits.skpVx x
  | .sknpVx x => EncodeFixedBits.sknpVx x
  | .ldVxDT x => EncodeFixedBits.ldVxDT x
  | .ldVxK x => EncodeFixedBits.ldVxK x
  | .ldDTVx x => EncodeFixedBits.ldDTVx x
  | .ldSTVx x => EncodeFixedBits.ldSTVx x
  | .addIVx x => EncodeFixedBits.addIVx x
  | .ldFVx x => EncodeFixedBits.ldFVx x
  | .ldBVx x => EncodeFixedBits.ldBVx x
  | .ldMemVx x => EncodeFixedBits.ldMemVx x
  | .ldVxMem x => EncodeFixedBits.ldVxMem x

/-- The row of what a word decodes to selects the word (R94). -/
theorem selects_of_decodeWord {w : Word} {i : Instr} (h : decodeWord w = .ok i) : i.row.selects w = true := by
  obtain ⟨rfl, _⟩ := encode_of_decodeWord h
  exact beq_iff_eq.mpr (encode_and_mask i)

/-- A row of the table that selects a word is the row of what the word decodes to, or the SYS row on CLS or RET. -/
theorem decodeWord_of_selects {w : Word} {r : OpcodeRow} (hr : r ∈ opcodeTable) (h : r.selects w = true) :
    (∃ i, decodeWord w = .ok i ∧ i.row = r) ∨ (r = sysRow ∧ (decodeWord w = .ok .cls ∨ decodeWord w = .ok .ret)) := by
  obtain ⟨j, rfl⟩ := exists_row_of_mem_opcodeTable hr
  refine (row_of_selects h).imp_left fun hmap => ?_
  rcases hd : decodeWord w with e | i
  · simp [hd, Except.map] at hmap
  · exact ⟨i, rfl, by simpa [hd, Except.map] using hmap⟩

/-- Settles O4: a row that selects a word is the row of its one meaning, or SYS on CLS or RET. -/
theorem opcodeRowsOverlapOnlyAtSys : Obligations.OpcodeRowsOverlapOnlyAtSys := by
  unfold Obligations.OpcodeRowsOverlapOnlyAtSys
  intro w r₁ r₂ hr₁ hr₂ h₁ h₂
  rcases decodeWord_of_selects hr₁ h₁ with ⟨i, hi, rfl⟩ | ⟨rfl, hd⟩
  · rcases decodeWord_of_selects hr₂ h₂ with ⟨j, hj, rfl⟩ | ⟨rfl, hd⟩
    · obtain rfl : i = j := by simpa [hi] using hj
      exact .inl rfl
    · refine .inr (.inr ⟨rfl, ?_⟩)
      rcases hd with hd | hd <;> obtain rfl := Except.ok.inj (hi.symm.trans hd) <;> decide
  · rcases decodeWord_of_selects hr₂ h₂ with ⟨j, hj, rfl⟩ | ⟨rfl, _⟩
    · refine .inr (.inl ⟨rfl, ?_⟩)
      rcases hd with hd | hd <;> obtain rfl := Except.ok.inj (hj.symm.trans hd) <;> decide
    · exact .inl rfl

/-- The first selecting row is the row of what the word decodes to: SYS comes last, after CLS and RET (R101). -/
theorem selectRow_of_decodeWord {w : Word} {i : Instr} (h : decodeWord w = .ok i) : selectRow w = some i.row := by
  have hsel := selects_of_decodeWord h
  rcases hf : selectRow w with _ | r
  · exact absurd hsel (List.find?_eq_none.mp hf _ (row_mem_opcodeTable i))
  · have hr := List.find?_some hf
    rcases decodeWord_of_selects (List.mem_of_find?_eq_some hf) hr with ⟨j, hj, rfl⟩ | ⟨rfl, hd⟩
    · obtain rfl := Except.ok.inj (h.symm.trans hj)
      rfl
    · obtain ⟨rfl, _⟩ := encode_of_decodeWord h
      rcases hd with hd | hd <;> obtain rfl := Except.ok.inj (h.symm.trans hd)
      · exact absurd hf (by decide)
      · exact absurd hf (by decide)

/-- Settles O3: the row of the decoded instruction is the first that selects the word, and a miss is selected by none. -/
theorem decoderAgreesWithOpcodeTable : Obligations.DecoderAgreesWithOpcodeTable := by
  unfold Obligations.DecoderAgreesWithOpcodeTable
  refine fun w => ⟨fun i => selectRow_of_decodeWord, fun e h => ⟨(decodeWord_error h).1, ?_⟩⟩
  rw [selectRow, List.find?_eq_none]
  intro r hr hsel
  rcases decodeWord_of_selects hr hsel with ⟨i, hi, _⟩ | ⟨_, hi | hi⟩ <;> simp [h] at hi

/-- Settles O6: each word is run through the decoder. -/
theorem writtenOutWordsDecode : Obligations.WrittenOutWordsDecode := by
  unfold Obligations.WrittenOutWordsDecode
  decide

end Sys2Proof

/-! # Proofs of the remaining statements: faults and the run state (R33 of 10_state.md, 60_exceptions.md) -/

namespace Sys2Proof.Machine

open Host (Outcome)

/-! ## What a running step can do -/

section
variable {s t : State}

/-- Cells at `EA(0)` up to `EA(n - 1)` are unprotected when these addresses are. -/
theorem State.cells_allowed (s : State) {cells : List (Addr × Byte)} {n : Nat}
    (at_ : cells.map Prod.fst = (List.range n).map s.ea) (allowed : ∀ k < n, 0x1FF < (s.ea k).toNat) :
    ∀ c ∈ cells, 0x1FF < c.1.toNat := by
  intro c hc
  have hmem : c.1 ∈ (List.range n).map s.ea := at_ ▸ List.mem_map_of_mem hc
  obtain ⟨k, hk, hkc⟩ := List.mem_map.mp hmem
  exact hkc ▸ allowed k (List.mem_range.mp hk)

/-- A store to `EA(0)` up to `EA(n - 1)` raises at its lowest protected target, or raises nothing. -/
theorem State.storeCells_fault_cases (s : State) {cells : List (Addr × Byte)} {n : Nat}
    (at_ : cells.map Prod.fst = (List.range n).map s.ea) :
    (∃ k < n, (s.ea k).toNat ≤ 0x1FF ∧ (∀ j, j < k → 0x1FF < (s.ea j).toNat) ∧
      s.storeCells cells = s.raise .protectedWrite ((s.ea k).setWidth 16)) ∨
    (s.storeCells cells).run = s.run := by
  by_cases hex : ∃ k, k < n ∧ (s.ea k).toNat ≤ 0x1FF
  · obtain ⟨hlt, hlow⟩ := Nat.find_spec hex
    have hbelow : ∀ j, j < Nat.find hex → 0x1FF < (s.ea j).toNat := fun j hj => by
      have := Nat.find_min hex hj
      omega
    exact .inl ⟨_, hlt, hlow, hbelow, s.storeCells_of_protected cells n _ at_ hlt hlow hbelow⟩
  · have allowed : ∀ k < n, 0x1FF < (s.ea k).toNat := fun k hk => not_le.mp fun hle => hex ⟨k, hk, hle⟩
    rw [s.storeCells_of_allowed cells (s.cells_allowed at_ allowed)]
    exact .inr rfl

/-- An instruction that ends Faulted has met a condition of R221 and raised it. -/
theorem faultCondition_of_exec {i : Instr} (hi : AboutToExecute s i) (h : exec i s = .next t) (hf : t.run = .faulted) :
    ∃ code info, FaultCondition s code info ∧ t = s.raise code info := by
  have hrun : s.run ≠ .faulted := by simp [hi.1]
  cases i with
  | ret =>
    rcases exec_ret_cases h with ⟨hsp, rfl⟩ | ⟨_, rfl⟩
    · exact ⟨_, _, .inr (.inr (.inl ⟨rfl, hsp, hi, rfl⟩)), rfl⟩
    · exact absurd hf hrun
  | call nnn =>
    rcases exec_call_cases h with ⟨hsp, rfl⟩ | ⟨_, rfl⟩
    · exact ⟨_, _, .inr (.inl ⟨rfl, hsp, nnn, hi, zextAddr_toNat nnn⟩), rfl⟩
    · exact absurd hf hrun
  | ldBVx x =>
    cases h
    rcases s.storeCells_fault_cases (s.bcdCells_fst (s.readReg x)) with ⟨k, hk, hlow, hbelow, hs⟩ | hs
    · exact ⟨_, _, .inr (.inr (.inr ⟨rfl, x, k, .inl ⟨hi, by omega⟩, hlow, hbelow, zextAddr_toNat _⟩)), hs⟩
    · exact absurd (hs.symm.trans hf) hrun
  | ldMemVx x =>
    cases h
    rcases s.storeCells_fault_cases (s.blockCells_fst_range x) with ⟨k, hk, hlow, hbelow, hs⟩ | hs
    · exact ⟨_, _, .inr (.inr (.inr ⟨rfl, x, k, .inr ⟨hi, by omega⟩, hlow, hbelow, zextAddr_toNat _⟩)), hs⟩
    · exact absurd (hs.symm.trans hf) hrun
  | ldVxMem x =>
    cases h
    rw [State.writeRegs_eq] at hf
    exact absurd hf hrun
  | ldVxK x =>
    cases h
    cases hf
  | _ =>
    cases h
    exact absurd hf hrun

/-- A step that ends Faulted has met a condition of R221 and raised it. -/
theorem faultCondition_of_step (hrun : s.run = .running) (h : step s = .next t) (hf : t.run = .faulted) :
    ∃ code info, FaultCondition s code info ∧ t = s.raise code info := by
  rcases step_cases h with ⟨hne, _⟩ | ⟨_, hr, rfl⟩ | ⟨_, _, _, rfl⟩ | ⟨_, hr, i, hd, he⟩
  · exact absurd hrun hne
  · refine ⟨_, _, .inl ⟨rfl, fun hpc => ?_, rfl⟩, rfl⟩
    simp [State.fetchInRange_of_fetchable hpc] at hr
  · simp [hrun] at hf
  · exact faultCondition_of_exec ⟨hrun, s.fetchInRange_iff.mp hr, by rwa [← State.fetchWord_eq_wordAtPc]⟩ he hf

/-! ## What a fault does -/

/-- A detail word of 16 bits is known by its number. -/
theorem eq_zextAddr_of_toNat {info : Word} {a : Addr} (h : info.toNat = a.toNat) : info = zextAddr a :=
  BitVec.eq_of_toNat_eq (h.trans (zextAddr_toNat a).symm)

/-- LD B, Vx raises at its lowest protected target (R66, R163). -/
theorem exec_ldBVx_of_protected {x : RegIdx} {k : Nat} (hk : k ≤ 2) (hlow : (s.ea k).toNat ≤ 0x1FF)
    (hbelow : ∀ j, j < k → 0x1FF < (s.ea j).toNat) :
    exec (.ldBVx x) s = .next (s.raise .protectedWrite (zextAddr (s.ea k))) :=
  congrArg Outcome.next (s.storeCells_of_protected _ 3 k (s.bcdCells_fst _) (by omega) hlow hbelow)

/-- LD [I], Vx raises at its lowest protected target (R66, R164). -/
theorem exec_ldMemVx_of_protected {x : RegIdx} {k : Nat} (hk : k ≤ x.toNat) (hlow : (s.ea k).toNat ≤ 0x1FF)
    (hbelow : ∀ j, j < k → 0x1FF < (s.ea j).toNat) :
    exec (.ldMemVx x) s = .next (s.raise .protectedWrite (zextAddr (s.ea k))) :=
  congrArg Outcome.next (s.storeCells_of_protected _ (x.toNat + 1) k (s.blockCells_fst_range x) (by omega) hlow hbelow)

/-- A running step that meets a condition of R221 raises it (R222, R224). -/
theorem step_of_faultCondition {code : FaultCode} {info : Word} (hrun : s.run = .running)
    (h : FaultCondition s code info) : step s = .next (s.raise code info) := by
  rcases h with ⟨rfl, hpc, rfl⟩ | ⟨rfl, hsp, nnn, hi, hinfo⟩ | ⟨rfl, hsp, hi, rfl⟩ |
    ⟨rfl, x, k, hi, hlow, hbelow, hinfo⟩
  · exact step_of_outOfRange s hrun (Bool.eq_false_iff.mpr fun hr => hpc (s.fetchInRange_iff.mp hr))
  · rw [step_of_aboutToExecute hi, exec_call_of_full s nnn hsp, eq_zextAddr_of_toNat hinfo]
  · rw [step_of_aboutToExecute hi, exec_ret_of_empty s hsp]
  · obtain rfl := eq_zextAddr_of_toNat hinfo
    rcases hi with ⟨hi, hk⟩ | ⟨hi, hk⟩
    · exact (step_of_aboutToExecute hi).trans (exec_ldBVx_of_protected hk hlow hbelow)
    · exact (step_of_aboutToExecute hi).trans (exec_ldMemVx_of_protected hk hlow hbelow)

/-- A step with `pc` outside the fetch range returns false (R201). -/
theorem State.stepRender_of_not_fetchable (hpc : ¬ PcFetchable s) : s.stepRender = false := by
  have hr : s.fetchInRange = false := Bool.eq_false_iff.mpr fun h => hpc (s.fetchInRange_iff.mp h)
  unfold State.stepRender
  cases s.run <;> simp [hr]

/-- A step that faults returns false (R201, R221). -/
theorem State.stepRender_of_faultCondition {code : FaultCode} {info : Word} (h : FaultCondition s code info) :
    s.stepRender = false := by
  rcases h with ⟨_, hpc, _⟩ | ⟨_, _, nnn, hi, _⟩ | ⟨_, _, hi, _⟩ | ⟨_, x, k, hi | hi, _, _, _⟩
  · exact State.stepRender_of_not_fetchable hpc
  · exact State.stepRender_of_aboutToExecute hi
  · exact State.stepRender_of_aboutToExecute hi
  · exact State.stepRender_of_aboutToExecute hi.1
  · exact State.stepRender_of_aboutToExecute hi.1

end

/-- Settles O52: under any of the four conditions the step is one `raise`, whose frame is known. -/
theorem faultsLatchTheirCauseAndNothingElse : Obligations.FaultsLatchTheirCauseAndNothingElse := by
  unfold Obligations.FaultsLatchTheirCauseAndNothingElse
  intro s t code info hrun hc h
  rw [step_of_faultCondition hrun hc] at h
  cases h
  exact ⟨rfl, rfl, s.raise_changesOnly code info, State.stepRender_of_faultCondition hc⟩

/-- Settles O29: an instruction raises, latching its own `pc`, or keeps to its parts. -/
theorem onlyNamedPartsChange : Obligations.OnlyNamedPartsChange := by
  unfold Obligations.OnlyNamedPartsChange
  intro i s t h
  rcases exec_frame h with ⟨c, w, rfl⟩ | hi
  · exact .inr ⟨rfl, rfl, s.raise_changesOnly c w⟩
  · exact .inl hi

/-- Settles O38: both stores go to `EA(0)`, `EA(1)`, ..., and the lowest protected target is raised. -/
theorem protectedStoresFaultBeforeWriting : Obligations.ProtectedStoresFaultBeforeWriting := by
  unfold Obligations.ProtectedStoresFaultBeforeWriting
  intro s x k p hp hk hlow hbelow
  have raises : exec p.1 s = .next (s.raise .protectedWrite (zextAddr (s.ea k))) := by
    simp only [List.mem_cons, List.not_mem_nil, or_false] at hp
    rcases hp with rfl | rfl
    · exact exec_ldBVx_of_protected hk hlow hbelow
    · exact exec_ldMemVx_of_protected hk hlow hbelow
  exact ⟨_, raises, rfl, rfl, s.raise_changesOnly _ _⟩

/-! ## The run state (R33) -/

/-- Running, a step enters the wait exactly when it executes LD Vx, K (R192). -/
theorem run_eq_awaitingKey_iff {s t : State} (hrun : s.run = .running) (h : step s = .next t) :
    t.run = .awaitingKey ↔ ∃ x, AboutToExecute s (.ldVxK x) := by
  constructor
  · intro hwait
    rcases step_cases h with ⟨hne, _⟩ | ⟨_, _, rfl⟩ | ⟨_, _, _, rfl⟩ | ⟨_, hr, i, hd, he⟩
    · exact absurd hrun hne
    · cases hwait
    · simp [hrun] at hwait
    · rcases exec_frame he with ⟨c, w, rfl⟩ | hi
      · cases hwait
      · by_cases hin : .run ∈ partsWritten i
        · obtain ⟨x, rfl⟩ := (run_mem_partsWritten i).mp hin
          exact ⟨x, hrun, s.fetchInRange_iff.mp hr, by rwa [← State.fetchWord_eq_wordAtPc]⟩
        · have hsame : t.run = s.run := hi .run hin
          simp [hsame, hrun] at hwait
  · rintro ⟨x, hx⟩
    rw [step_of_aboutToExecute hx] at h
    cases h
    rfl

/-- Running, a step faults exactly when a condition of R221 holds. -/
theorem run_eq_faulted_iff {s t : State} (hrun : s.run = .running) (h : step s = .next t) :
    t.run = .faulted ↔ ∃ code info, FaultCondition s code info := by
  constructor
  · intro hf
    obtain ⟨code, info, hc, _⟩ := faultCondition_of_step hrun h hf
    exact ⟨code, info, hc⟩
  · rintro ⟨code, info, hc⟩
    rw [step_of_faultCondition hrun hc] at h
    cases h
    rfl

/-- A `keyDown` resumes a waiting core and keeps the run state of any other (R203). -/
theorem State.keyDown_run (s : State) (k : KeyIdx) :
    (s.keyDown k).run = if s.run = .awaitingKey then .running else s.run := by
  by_cases h : s.run = .awaitingKey
  · rw [s.keyDown_of_awaitingKey k h, if_pos h]
  · rw [s.keyDown_of_ne k h, if_neg h]
    rfl

/-- Settles O51: operation by operation; the two exits of a running step are known. -/
theorem runStateFollowsItsTransitionTable : Obligations.RunStateFollowsItsTransitionTable := by
  unfold Obligations.RunStateFollowsItsTransitionTable
  intro op s t h
  cases op with
  | init image =>
    cases h
    rcases s.init_cases image with ⟨hle, hi⟩ | ⟨hgt, hi⟩
    · exact (if_pos hle).mpr (by rw [hi]; rfl)
    · exact (if_neg (by omega)).mpr hi
  | tickTimers => cases h; rfl
  | keyUp k => cases h; rfl
  | keyDown k => cases h; exact s.keyDown_run k
  | step =>
    refine ⟨fun hne => ?_, fun hrun => run_eq_awaitingKey_iff hrun h, fun hrun => run_eq_faulted_iff hrun h⟩
    exact Outcome.next.inj (h.symm.trans (step_of_run_ne hne))

end Sys2Proof.Machine

/-! # Proofs of the remaining statements: the invariant (R41 of 10_state.md) -/

namespace Sys2Proof.Machine

open Host (Outcome)

/-! ## Keeping the invariant -/

section
variable {s t : State}

/-- The invariant looks at memory, the latch, the stack and `pc`, and at the run state only for being Faulted. -/
theorem Inv.of_same (hi : Inv s) (mem : t.mem = s.mem) (run : t.run = .faulted ↔ s.run = .faulted)
    (fault : t.fault = s.fault) (sp : t.sp = s.sp) (stack : t.stack = s.stack) (pc : t.pc.toNat ≤ 0x10FE) : Inv t where
  canonicalMemory := mem ▸ hi.canonicalMemory
  fontIntact a ha := (State.readByte_of_mem mem a).trans (hi.fontIntact a ha)
  latchAgrees := by
    unfold LatchAgrees
    rw [run, fault]
    exact hi.latchAgrees
  liveReturnsInRange := by
    unfold LiveReturnsInRange
    rw [sp, stack]
    exact hi.liveReturnsInRange
  pcBounded := pc

/-- A raise of one of the four causes keeps the invariant (R222). -/
theorem Inv.raise (hi : Inv s) {code : FaultCode} (hc : code ≠ .noFault) (info : Word) : Inv (s.raise code info) where
  canonicalMemory := hi.canonicalMemory
  fontIntact := hi.fontIntact
  latchAgrees := ⟨⟨fun _ => hc, fun _ => rfl⟩, fun h => absurd h hc⟩
  liveReturnsInRange := hi.liveReturnsInRange
  pcBounded := hi.pcBounded

/-- Where a fetch is possible, `pc + 2` stays far below the bound (R24, R70). -/
theorem Inv.advance (hi : Inv s) (hpc : PcFetchable s) : Inv s.advance :=
  hi.of_same rfl Iff.rfl rfl rfl rfl (by
    have hle := hpc.2
    rw [State.advance_pc_toNat hpc]
    omega)

/-- A store that raises nothing keeps the font region and the canonical form (R66). -/
theorem Inv.writeAll (hi : Inv s) {cells : List (Addr × Byte)} (hall : ∀ c ∈ cells, 0x1FF < c.1.toNat) :
    Inv { s with mem := Memory.writeAll s.mem cells } where
  canonicalMemory := Memory.wf_writeAll _ _ hi.canonicalMemory
  fontIntact a ha := by
    refine (Memory.read_writeAll_of_notMem s.mem cells a fun hmem => ?_).trans (hi.fontIntact a ha)
    obtain ⟨c, hc, rfl⟩ := List.mem_map.mp hmem
    have := hall c hc
    omega
  latchAgrees := hi.latchAgrees
  liveReturnsInRange := hi.liveReturnsInRange
  pcBounded := hi.pcBounded

theorem Inv.storeCells (hi : Inv s) (hpc : PcFetchable s) (cells : List (Addr × Byte)) : Inv (s.storeCells cells) := by
  rcases s.storeCells_cases cells with ⟨_, c, _, _, _, _, h⟩ | ⟨hall, h⟩
  · rw [h]
    exact hi.raise (by decide) _
  · rw [h]
    exact (hi.writeAll hall).advance hpc

/-- The return address of a fetchable CALL lies in 0x0202 to 0x1000, so a push keeps the invariant (R122, R124). -/
theorem Inv.call (hi : Inv s) (hpc : PcFetchable s) (hsp : s.sp.val < 16) (nnn : Addr) :
    Inv { s with pc := zextAddr nnn, stack := s.stack.set s.sp.val (s.pc + 2#16) hsp,
                 sp := ⟨s.sp.val + 1, by omega⟩ } where
  canonicalMemory := hi.canonicalMemory
  fontIntact := hi.fontIntact
  latchAgrees := hi.latchAgrees
  liveReturnsInRange k hk hlive := by
    have hret : (s.pc + 2#16).toNat = s.pc.toNat + 2 := State.advance_pc_toNat hpc
    obtain ⟨hlow, hhigh⟩ := hpc
    rw [Vector.getElem_set]
    split
    · omega
    · next hne => exact hi.liveReturnsInRange k hk (by simp at hlive; omega)
  pcBounded := by
    unfold PcBounded
    rw [zextAddr_toNat]
    have := nnn.isLt
    omega

/-- RET goes to a live return address, so a pop keeps the invariant (R122). -/
theorem Inv.ret (hi : Inv s) (hsp : 0 < s.sp.val) :
    Inv { s with pc := s.stack[s.sp.val - 1], sp := ⟨s.sp.val - 1, by omega⟩ } where
  canonicalMemory := hi.canonicalMemory
  fontIntact := hi.fontIntact
  latchAgrees := hi.latchAgrees
  liveReturnsInRange k hk hlive := hi.liveReturnsInRange k hk (by simp at hlive; omega)
  pcBounded := by
    have := hi.liveReturnsInRange (s.sp.val - 1) (by omega) (by omega)
    show s.stack[s.sp.val - 1].toNat ≤ 0x10FE
    omega

theorem Inv.skipIf (hi : Inv s) (hpc : PcFetchable s) (cond : Bool) : Inv (s.skipIf cond) :=
  hi.of_same rfl Iff.rfl rfl rfl rfl (by
    obtain ⟨_, hle⟩ := hpc
    rw [State.skipIf_pc]
    split <;> rw [BitVec.toNat_add, BitVec.toNat_ofNat] <;> omega)

/-- The largest target of JP V0 is 0x0FFF + 0xFF (R24, R129). -/
theorem jpV0_toNat (nnn : Addr) (v : Byte) : (zextAddr nnn + zextByte v).toNat = nnn.toNat + v.toNat := by
  have := nnn.isLt
  have := v.isLt
  rw [BitVec.toNat_add, zextAddr_toNat, zextByte, BitVec.toNat_setWidth_of_le (by omega)]
  omega

/-- Every instruction executed by a step keeps the invariant. -/
theorem Inv.exec {i : Instr} (hi : Inv s) (ha : AboutToExecute s i) (h : exec i s = .next t) : Inv t := by
  obtain ⟨hrun, hpc, _⟩ := ha
  cases i with
  | ret =>
    rcases exec_ret_cases h with ⟨_, rfl⟩ | ⟨hsp, rfl⟩
    · exact hi.raise (by decide) _
    · exact hi.ret hsp
  | call nnn =>
    rcases exec_call_cases h with ⟨_, rfl⟩ | ⟨hsp, rfl⟩
    · exact hi.raise (by decide) _
    · exact hi.call hpc hsp nnn
  | jp nnn =>
    cases h
    exact hi.of_same rfl Iff.rfl rfl rfl rfl (by
      rw [State.setPc_pc, zextAddr_toNat]
      have := nnn.isLt
      omega)
  | jpV0NNN nnn =>
    cases h
    exact hi.of_same rfl Iff.rfl rfl rfl rfl (by
      rw [State.setPc_pc, jpV0_toNat]
      have := nnn.isLt
      have := (s.readReg 0x0#4).isLt
      omega)
  | seVxNN | sneVxNN | seVxVy | sneVxVy | skpVx | sknpVx =>
    cases h
    exact hi.skipIf hpc _
  | ldBVx x | ldMemVx x =>
    cases h
    exact hi.storeCells hpc _
  | ldVxMem x =>
    cases h
    rw [State.writeRegs_eq]
    exact (hi.advance hpc).of_same rfl Iff.rfl rfl rfl rfl (hi.advance hpc).pcBounded
  | ldVxK x =>
    cases h
    exact (hi.advance hpc).of_same rfl (by simp [hrun]) rfl rfl rfl (hi.advance hpc).pcBounded
  | _ =>
    cases h
    exact (hi.advance hpc).of_same rfl Iff.rfl rfl rfl rfl (hi.advance hpc).pcBounded

/-- Every step keeps the invariant. -/
theorem Inv.step (hi : Inv s) (h : step s = .next t) : Inv t := by
  rcases step_cases h with ⟨_, rfl⟩ | ⟨_, _, rfl⟩ | ⟨_, hr, _, rfl⟩ | ⟨hrun, hr, i, hd, he⟩
  · exact hi
  · exact hi.raise (by decide) _
  · exact hi.advance (s.fetchInRange_iff.mp hr)
  · exact hi.exec ⟨hrun, s.fetchInRange_iff.mp hr, by rwa [← State.fetchWord_eq_wordAtPc]⟩ he

end

/-- Settles O56: each instruction keeps the invariant where it can be fetched. -/
theorem stepKeepsTheInvariant : Obligations.StepKeepsTheInvariant := by
  unfold Obligations.StepKeepsTheInvariant
  exact fun s t hi h => hi.step h

/-! ## Where the invariant starts -/

theorem inv_reset : Inv State.reset where
  canonicalMemory := Memory.wf_nil
  fontIntact _ _ := rfl
  latchAgrees := by unfold LatchAgrees; decide
  liveReturnsInRange _ _ hlive := absurd hlive (Nat.not_lt_zero _)
  pcBounded := by unfold PcBounded; decide

/-- Settles O55: with no cell stored, no return address live and no fault latched. -/
theorem resetMeetsTheInvariant : Obligations.ResetMeetsTheInvariant := inv_reset

/-- An accepted image is loaded at 0x200 and above (R260, R262). -/
theorem imageCells_above {image : List Byte} (hle : image.length ≤ 3584) :
    ∀ c ∈ imageCells image, 0x1FF < c.1.toNat := by
  intro c hc
  obtain ⟨k, hk, rfl⟩ := List.mem_map.mp hc
  have := List.mem_range.mp hk
  simp only [BitVec.toNat_ofNat, Config.progBase]
  omega

theorem inv_loaded {image : List Byte} (hle : image.length ≤ 3584) (draws : Nat) :
    Inv { State.reset with mem := Memory.writeAll [] (imageCells image), draws := draws } :=
  (inv_reset.writeAll (imageCells_above hle)).of_same rfl Iff.rfl rfl rfl rfl inv_reset.pcBounded

/-! ## Schedules (R200, R207) -/

section
variable {s t : State}

/-- A step answers a next state when its way to execute does. -/
theorem stepBy_total {execute : Instr → State → Outcome State Fault Refusal}
    (total : ∀ i s, ∃ t, execute i s = .next t) (s : State) : ∃ t, stepBy execute s = .next t := by
  unfold stepBy
  rcases s.run with _ | _ | _
  · rcases s.fetchInRange
    · exact ⟨_, rfl⟩
    · rcases decodeWord s.fetchWord with e | i
      · exact ⟨_, rfl⟩
      · exact total i s
  · exact ⟨_, rfl⟩
  · exact ⟨_, rfl⟩

/-- Every host operation answers a next state. -/
theorem hostOp_total (op : HostOp) (s : State) : ∃ t, hostOp op s = .next t := by
  cases op with
  | step => exact stepBy_total exec_total s
  | _ => exact ⟨_, rfl⟩

/-- What every operation of a finite schedule keeps holds at its end. -/
theorem runSchedule_keeps {P : State → Prop} {ops : List HostOp}
    (keeps : ∀ op ∈ ops, ∀ s t, P s → hostOp op s = .next t → P t) (hs : P s) :
    ∃ t, runSchedule ops s = .next t ∧ P t := by
  induction ops generalizing s with
  | nil => exact ⟨s, rfl, hs⟩
  | cons op rest ih =>
    obtain ⟨u, hu⟩ := hostOp_total op s
    rw [runSchedule_cons hu]
    exact ih (fun o ho => keeps o (List.mem_cons_of_mem _ ho)) (keeps op List.mem_cons_self s u hs hu)

/-- What every operation of an infinite schedule keeps holds from there on. -/
theorem runFor_keeps_from {P : State → Prop} {sched : Schedule} {n : Nat}
    (keeps : ∀ n s t, P s → hostOp (sched n) s = .next t → P t) (hn : runFor sched s n = .next t) (ht : P t) {m : Nat}
    (hle : n ≤ m) : ∃ u, runFor sched s m = .next u ∧ P u := by
  induction m, hle using Nat.le_induction with
  | base => exact ⟨t, hn, ht⟩
  | succ m _ ih =>
    obtain ⟨u, hu, hPu⟩ := ih
    obtain ⟨v, hv⟩ := hostOp_total (sched m) u
    exact ⟨v, (runFor_succ hu).trans hv, keeps m u v hPu hv⟩

/-- What every operation of an infinite schedule keeps holds all along. -/
theorem runFor_keeps {P : State → Prop} {sched : Schedule} (keeps : ∀ n s t, P s → hostOp (sched n) s = .next t → P t)
    (hs : P s) (n : Nat) : ∃ t, runFor sched s n = .next t ∧ P t :=
  runFor_keeps_from keeps (runFor_zero sched s) hs (Nat.zero_le n)

/-- Every host operation keeps the invariant. -/
theorem Inv.hostOp {op : HostOp} (hi : Inv s) (h : hostOp op s = .next t) : Inv t := by
  rcases hostOp_cases h with ⟨_, hs⟩ | ⟨_, rfl⟩ | ⟨k, _, rfl⟩ | ⟨k, _, rfl⟩ | ⟨image, _, rfl⟩
  · exact hi.step hs
  · exact hi.of_same rfl Iff.rfl rfl rfl rfl hi.pcBounded
  · by_cases hw : s.run = .awaitingKey
    · rw [s.keyDown_of_awaitingKey k hw]
      exact hi.of_same rfl (by simp [hw]) rfl rfl rfl hi.pcBounded
    · rw [s.keyDown_of_ne k hw]
      exact hi.of_same rfl Iff.rfl rfl rfl rfl hi.pcBounded
  · exact hi.of_same rfl Iff.rfl rfl rfl rfl hi.pcBounded
  · rcases s.init_cases image with ⟨hle, h⟩ | ⟨_, h⟩
    · rw [h]
      exact inv_loaded hle _
    · rwa [h]

end

/-- Settles O57: a loaded image meets the invariant and every operation keeps it, so every schedule does. -/
theorem schedulesKeepTheInvariant : Obligations.SchedulesKeepTheInvariant := by
  unfold Obligations.SchedulesKeepTheInvariant
  refine ⟨fun image hle => ⟨_, State.initial_of_le hle, inv_loaded hle 0⟩, fun c hc => ?_, fun ops s t hs h => ?_,
    fun sched s hs => runFor_keeps (fun _ _ _ hu => hu.hostOp) hs⟩
  · obtain ⟨image, hle, rfl⟩ := (CoreState.isInitial_iff c).mp hc
    exact inv_loaded hle 0
  · obtain ⟨u, hu, hi⟩ := runSchedule_keeps (ops := ops) (fun _ _ _ _ hs => hs.hostOp) hs
    obtain rfl := Outcome.next.inj (h.symm.trans hu)
    exact hi

end Sys2Proof.Machine

/-! # Proofs of the remaining statements: runs, the host's operations and the labelled transition system (45_host_operations.md,
70_reset_and_hazards.md) -/

namespace Sys2Proof.Machine

open Host (Outcome)

/-! ## Observations (R205, R206, R207) -/

theorem length_observe (ops : List HostOp) (s : State) (last : Option Bool) :
    (observe ops s last).length = ops.length + 1 := by
  induction ops generalizing s last with
  | nil => rfl
  | cons op rest ih =>
    obtain ⟨t, ht⟩ := hostOp_total op s
    rw [observe_cons ht, List.length_cons, ih, List.length_cons]

theorem renderFor_succ {sched : Schedule} {s t : State} {n : Nat} (h : runFor sched s n = .next t) (last : Option Bool) :
    renderFor sched s last (n + 1) = renderAfter (sched n) t (renderFor sched s last n) := by
  simp [renderFor, h]

/-- The first `n` operations of an infinite schedule, as a list that may go on: the same state, and the observation so far
with the same `render`. -/
theorem runFor_eq_runSchedule_range (sched : Schedule) (s : State) (last : Option Bool) (n : Nat) :
    ∃ t seen, runFor sched s n = .next t ∧ ∀ rest,
      runSchedule ((List.range n).map sched ++ rest) s = runSchedule rest t ∧
      observe ((List.range n).map sched ++ rest) s last = seen ++ observe rest t (renderFor sched s last n) := by
  induction n with
  | zero => exact ⟨s, [], rfl, fun _ => ⟨rfl, rfl⟩⟩
  | succ n ih =>
    obtain ⟨t, seen, ht, hrest⟩ := ih
    obtain ⟨u, hu⟩ := hostOp_total (sched n) t
    refine ⟨u, seen ++ [t.outputs (renderFor sched s last n)], (runFor_succ ht).trans hu, fun rest => ?_⟩
    obtain ⟨hrun, hobs⟩ := hrest (sched n :: rest)
    rw [List.range_succ, List.map_append, List.append_assoc, List.map_singleton, List.singleton_append, hrun, hobs,
      runSchedule_cons hu, observe_cons hu, renderFor_succ ht]
    simp

/-- Settles O11: no operation stops, and an infinite schedule is run and observed as its first operations are. -/
theorem everyScheduleRunsToItsEnd : Obligations.EveryScheduleRunsToItsEnd := by
  unfold Obligations.EveryScheduleRunsToItsEnd
  refine ⟨fun ops s last => ⟨?_, length_observe ops s last⟩, fun sched s last n => ?_⟩
  · obtain ⟨t, ht, _⟩ := runSchedule_keeps (P := fun _ => True) (ops := ops) (s := s) (fun _ _ _ _ _ _ => trivial) trivial
    exact ⟨t, ht⟩
  · obtain ⟨t, seen, ht, hrest⟩ := runFor_eq_runSchedule_range sched s last n
    obtain ⟨hrun, hobs⟩ := hrest []
    rw [List.append_nil] at hrun hobs
    exact ⟨⟨t, ht⟩, ht.trans hrun.symm, by simp [observeFor, ht, hobs]⟩

/-! ## The render result (R201) -/

theorem execRender_iff (i : Instr) : execRender i = true ↔ ∃ x y n, i = .drwVxVyN x y n := by
  cases i <;> simp [execRender]

/-- A step that returns true executes a DRW (R181, R201). -/
theorem State.stepRender_iff (s : State) : s.stepRender = true ↔ ∃ x y n, AboutToExecute s (.drwVxVyN x y n) := by
  constructor
  · intro h
    by_cases hpc : PcFetchable s
    · rcases hd : decodeWord (wordAtPc s) with e | i
      · simp [State.stepRender_of_miss hd] at h
      · by_cases hrun : s.run = .running
        · have hi : AboutToExecute s i := ⟨hrun, hpc, hd⟩
          rw [State.stepRender_of_aboutToExecute hi] at h
          obtain ⟨x, y, n, rfl⟩ := (execRender_iff i).mp h
          exact ⟨x, y, n, hi⟩
        · unfold State.stepRender at h
          split at h <;> simp_all
    · simp [State.stepRender_of_not_fetchable hpc] at h
  · rintro ⟨x, y, n, hi⟩
    exact State.stepRender_of_aboutToExecute hi

/-- Settles O10: of the instructions only DRW renders, and only a step has a result. -/
theorem renderIsTrueExactlyForDraw : Obligations.RenderIsTrueExactlyForDraw := by
  unfold Obligations.RenderIsTrueExactlyForDraw
  refine ⟨State.stepRender_iff, fun op s t last h => ?_⟩
  rw [observe_cons h, observe_nil]
  cases op <;> rfl

/-! ## A core that no step changes -/

theorem Part.same_trans {p : Part} {s t u : State} (h : p.same s t) (h' : p.same t u) : p.same s u := by
  cases p with
  | regs | mem => exact fun a => (h' a).trans (h a)
  | _ => exact Eq.trans h' h

theorem ChangesOnly.trans {parts : List Part} {s t u : State} (h : ChangesOnly parts s t) (h' : ChangesOnly parts t u) :
    ChangesOnly parts s u := fun p hp => Part.same_trans (h p hp) (h' p hp)

/-- Where the step does nothing, the other operations but `init` touch timers and keys only. -/
theorem hostOp_changesOnly_of_fixed {op : HostOp} {s t : State} (hstep : step s = .next s) (hw : s.run ≠ .awaitingKey)
    (noInit : ∀ image, op ≠ .init image) (h : hostOp op s = .next t) : ChangesOnly [.dt, .st, .key] s t := by
  rcases hostOp_cases h with ⟨_, hs⟩ | ⟨_, rfl⟩ | ⟨k, _, rfl⟩ | ⟨k, _, rfl⟩ | ⟨image, rfl, _⟩
  · obtain rfl := Outcome.next.inj (hs.symm.trans hstep)
    exact ChangesOnly.refl _ _
  · exact s.tickTimers_changesOnly.mono (by decide)
  · exact (s.keyDown_changesOnly_of_ne k hw).mono (by decide)
  · exact (s.keyUp_changesOnly k).mono (by decide)
  · exact absurd rfl (noInit image)

/-- Settles O53: a Faulted core is one that no step changes, and it stays Faulted. -/
theorem faultedIsPermanentUntilInit : Obligations.FaultedIsPermanentUntilInit := by
  unfold Obligations.FaultedIsPermanentUntilInit
  refine fun ops s hf noInit => runSchedule_keeps (fun op hop t u ht h => ht.trans ?_) (ChangesOnly.refl _ s)
  have htf : t.run = .faulted := (ht .run (by decide)).trans hf
  exact hostOp_changesOnly_of_fixed (step_of_faulted t htf) (by simp [htf])
    (fun image e => noInit image (e ▸ hop)) h

/-! ## Finished programs (R270) -/

/-- The word at `pc` of a finished program is a jump to itself. -/
theorem Finished.aboutToExecute {s : State} (h : Finished s) : AboutToExecute s (.jp (BitVec.ofNat 12 s.pc.toNat)) := by
  obtain ⟨hrun, _, hpc, hw⟩ := h
  have hword : wordAtPc s = 0x1#4 ++ BitVec.ofNat 12 s.pc.toNat := by
    have := hpc.2
    apply BitVec.eq_of_toNat_eq
    rw [hw, toNat_nibble_nnn, BitVec.toNat_ofNat, BitVec.toNat_ofNat]
    omega
  exact ⟨hrun, hpc, by rw [hword]; exact decodeWord_jp _⟩

theorem Finished.step {s : State} (h : Finished s) : step s = .next s := by
  have htarget : zextAddr (BitVec.ofNat 12 s.pc.toNat) = s.pc := by
    obtain ⟨_, _, hpc, _⟩ := h
    have := hpc.2
    apply BitVec.eq_of_toNat_eq
    rw [zextAddr_toNat, BitVec.toNat_ofNat]
    omega
  rw [step_of_aboutToExecute h.aboutToExecute, exec_jp, htarget]
  rfl

/-- The timers and the key flags do not decide whether a program is finished. -/
theorem Finished.of_changesOnly {s t : State} (h : Finished s) (hc : ChangesOnly [.dt, .st, .key] s t) : Finished t := by
  obtain ⟨hrun, hfault, hpc, hw⟩ := h
  have run : t.run = s.run := hc .run (by decide)
  have fault : t.fault = s.fault := hc .fault (by decide)
  have pc : t.pc = s.pc := hc .pc (by decide)
  have mem : ∀ a, t.readByte a = s.readByte a := hc .mem (by decide)
  refine ⟨run.trans hrun, by rw [fault, hfault], ?_, ?_⟩
  · rwa [PcFetchable, pc]
  · rwa [wordAtPc, mem, mem, pc]

theorem Finished.hostOp_changesOnly {op : HostOp} {s t : State} (hs : Finished s) (noInit : ∀ image, op ≠ .init image)
    (h : hostOp op s = .next t) : ChangesOnly [.dt, .st, .key] s t :=
  hostOp_changesOnly_of_fixed hs.step (by simp [hs.1]) noInit h

/-- A finished program whose timers are at most `b`. -/
def FinishedWithTimers (b : Nat) (s : State) : Prop := Finished s ∧ s.dt.toNat ≤ b ∧ s.st.toNat ≤ b

/-- Nothing but `init` raises the timers of a finished program. -/
theorem FinishedWithTimers.hostOp {b : Nat} {op : HostOp} {s t : State} (hs : FinishedWithTimers b s)
    (noInit : ∀ image, op ≠ .init image) (h : hostOp op s = .next t) : FinishedWithTimers b t := by
  obtain ⟨hfin, hdt, hst⟩ := hs
  refine ⟨hfin.of_changesOnly (hfin.hostOp_changesOnly noInit h), ?_⟩
  rcases hostOp_cases h with ⟨_, hstep⟩ | ⟨_, rfl⟩ | ⟨k, _, rfl⟩ | ⟨k, _, rfl⟩ | ⟨image, rfl, _⟩
  · obtain rfl := Outcome.next.inj (hstep.symm.trans hfin.step)
    exact ⟨hdt, hst⟩
  · simp only [State.tickTimers_dt, State.tickTimers_st, tickDown_toNat]
    omega
  · rw [s.keyDown_of_ne k (by simp [hfin.1])]
    exact ⟨hdt, hst⟩
  · exact ⟨hdt, hst⟩
  · exact absurd rfl (noInit image)

/-- A tick takes the timers of a finished program down by 1. -/
theorem FinishedWithTimers.tick {b : Nat} {s : State} (hs : FinishedWithTimers (b + 1) s) :
    FinishedWithTimers b s.tickTimers := by
  obtain ⟨hfin, hdt, hst⟩ := hs
  refine ⟨hfin.of_changesOnly (s.tickTimers_changesOnly.mono (by decide)), ?_⟩
  simp only [State.tickTimers_dt, State.tickTimers_st, tickDown_toNat]
  omega

/-- While ticks keep coming, the timers of a finished program run out. -/
theorem timers_run_out {sched : Schedule} {s : State} (noInit : NeverResets sched) (ticks : TicksKeepComing sched)
    {b n : Nat} {t : State} (hn : runFor sched s n = .next t) (ht : FinishedWithTimers b t) :
    ∃ m u, runFor sched s m = .next u ∧ FinishedWithTimers 0 u := by
  induction b generalizing n t with
  | zero => exact ⟨n, t, hn, ht⟩
  | succ b ih =>
    obtain ⟨m, hle, htick⟩ := ticks n
    obtain ⟨u, hu, hPu⟩ := runFor_keeps_from (fun m _ _ hs => hs.hostOp (noInit m)) hn ht hle
    exact ih ((runFor_succ hu).trans (by rw [htick]; rfl)) hPu.tick

/-- Settles O59: the step is a jump to itself, the other operations leave it so, and each tick counts down. -/
theorem finishedProgramsAreFixedPoints : Obligations.FinishedProgramsAreFixedPoints := by
  unfold Obligations.FinishedProgramsAreFixedPoints
  intro s hs
  refine ⟨hs.step, State.stepRender_of_aboutToExecute hs.aboutToExecute, fun k t ht => ?_, fun sched noInit ticks => ?_⟩
  · have hop : ∃ op, (∀ image, op ≠ .init image) ∧ hostOp op s = .next t := by
      simp only [List.mem_cons, List.not_mem_nil, or_false] at ht
      rcases ht with rfl | rfl | rfl
      · exact ⟨.tickTimers, by simp, rfl⟩
      · exact ⟨.keyDown k, by simp, rfl⟩
      · exact ⟨.keyUp k, by simp, rfl⟩
    obtain ⟨op, noInit, h⟩ := hop
    have hc := hs.hostOp_changesOnly noInit h
    exact ⟨hc, hs.of_changesOnly hc⟩
  · have hmax : FinishedWithTimers 255 s := ⟨hs, by have := s.dt.isLt; omega, by have := s.st.isLt; omega⟩
    obtain ⟨n, t, hn, hfin, hdt, hst⟩ := timers_run_out noInit ticks (runFor_zero sched s) hmax
    exact ⟨n, t, hn, hfin, BitVec.eq_of_toNat_eq (Nat.le_zero.mp hdt), BitVec.eq_of_toNat_eq (Nat.le_zero.mp hst)⟩

/-! ## The key wait (R203, R207) -/

/-- A waiting core goes on waiting until a key is pressed, which makes it Running. -/
theorem runFor_of_awaitingKey {sched : Schedule} {s : State} (hs : s.run = .awaitingKey) (noInit : NeverResets sched)
    (n : Nat) : (∃ m t, runFor sched s m = .next t ∧ t.run = .running) ∨
      ((∀ m < n, ∀ k, sched m ≠ .keyDown k) ∧ ∃ t, runFor sched s n = .next t ∧ t.run = .awaitingKey) := by
  induction n with
  | zero => exact .inr ⟨by simp, s, rfl, hs⟩
  | succ n ih =>
    rcases ih with hrun | ⟨hnone, t, ht, hwait⟩
    · exact .inl hrun
    · obtain ⟨u, hu⟩ := hostOp_total (sched n) t
      have hsucc := (runFor_succ ht).trans hu
      have stays (hne : ∀ k, sched n ≠ .keyDown k) (hw : u.run = .awaitingKey) :
          (∀ m < n + 1, ∀ k, sched m ≠ .keyDown k) ∧ ∃ t, runFor sched s (n + 1) = .next t ∧ t.run = .awaitingKey := by
        refine ⟨fun m hm => ?_, u, hsucc, hw⟩
        rcases Nat.lt_succ_iff_lt_or_eq.mp hm with hlt | rfl
        · exact hnone m hlt
        · exact hne
      rcases hostOp_cases hu with ⟨hop, hstep⟩ | ⟨hop, rfl⟩ | ⟨k, hop, rfl⟩ | ⟨k, hop, rfl⟩ | ⟨image, hop, _⟩
      · obtain rfl := Outcome.next.inj (hstep.symm.trans (step_of_awaitingKey t hwait))
        exact .inr (stays (by simp [hop]) hwait)
      · exact .inr (stays (by simp [hop]) hwait)
      · exact .inl ⟨n + 1, _, hsucc, by rw [t.keyDown_run, if_pos hwait]⟩
      · exact .inr (stays (by simp [hop]) hwait)
      · exact absurd hop (noInit n image)

/-- Settles O47: `keyDown` by its two cases, and the wait kept by every operation but `keyDown` and `init`. -/
theorem keyDownResolvesTheWait : Obligations.KeyDownResolvesTheWait := by
  unfold Obligations.KeyDownResolvesTheWait
  refine ⟨fun sched s hs noInit ⟨n, k, hn⟩ => ?_, fun s k => ⟨s.readKey_keyDown k, fun hw => ⟨?_, fun r => ?_, ?_⟩,
    s.keyDown_changesOnly_of_ne k, fun k' => ?_⟩⟩
  · rcases runFor_of_awaitingKey hs noInit (n + 1) with h | ⟨hnone, _⟩
    · exact h
    · exact absurd hn (hnone n (Nat.lt_succ_self n) k)
  · rw [s.keyDown_run, if_pos hw]
  · have hk : (k.setWidth 8).toNat = k.toNat := BitVec.toNat_setWidth_of_le (by decide)
    rw [s.keyDown_of_awaitingKey k hw, ← hk]
    exact (congrArg BitVec.toNat ((s.setKey k true).readReg_writeReg s.kx r _)).trans (apply_ite _ _ _ _)
  · exact (s.keyDown_changesOnly k).mono (by decide)
  · refine State.keyDown_changesOnly_of_ne _ k' ?_
    rw [s.keyDown_run]
    split <;> simp_all

end Sys2Proof.Machine

/-! # Proofs of the remaining statements: init and the labelled transition system (R200, R260 to R262) -/

namespace Sys2Proof.Machine

open Host (Outcome)

/-! ## The image in memory (R260) -/

theorem imageCells_fst (image : List Byte) :
    (imageCells image).map Prod.fst = (List.range image.length).map fun k => BitVec.ofNat 12 (0x200 + k) := by
  simp [imageCells, Config.progBase, Function.comp_def]

/-- An accepted image ends inside the address space, so its bytes go to different addresses. -/
theorem imageCells_nodup {image : List Byte} (hle : image.length ≤ 3584) : ((imageCells image).map Prod.fst).Nodup := by
  rw [imageCells_fst]
  refine List.Nodup.map_on ?_ List.nodup_range
  intro j hj k hk h
  have hj := List.mem_range.mp hj
  have hk := List.mem_range.mp hk
  have := congrArg BitVec.toNat h
  simp only [BitVec.toNat_ofNat] at this
  omega

theorem mem_imageCells {image : List Byte} {k : Nat} (hk : k < image.length) :
    (BitVec.ofNat 12 (0x200 + k), image[k]) ∈ imageCells image :=
  List.mem_map.mpr ⟨k, List.mem_range.mpr hk, by simp [Config.progBase, hk]⟩

/-- Outside 0x200 and the bytes that follow, no cell of the image is stored. -/
theorem notMem_imageCells {image : List Byte} (hle : image.length ≤ 3584) {a : Addr}
    (ha : a.toNat < 0x200 ∨ 0x200 + image.length ≤ a.toNat) : a ∉ (imageCells image).map Prod.fst := by
  rw [imageCells_fst]
  intro hmem
  obtain ⟨k, hk, rfl⟩ := List.mem_map.mp hmem
  have := List.mem_range.mp hk
  rw [BitVec.toNat_ofNat] at ha
  omega

theorem State.init_of_le (s : State) {image : List Byte} (hle : image.length ≤ 3584) :
    s.init image = { State.reset with mem := Memory.writeAll [] (imageCells image), draws := s.draws } :=
  (s.init_cases image).elim And.right fun h => absurd hle (by omega)

theorem State.init_of_gt (s : State) {image : List Byte} (hgt : 3584 < image.length) : s.init image = s :=
  (s.init_cases image).elim (fun h => absurd hgt (by omega)) And.right

/-- Settles O58: the loaded state by its memory cells, the refusal by its length, and the initial states as those loaded. -/
theorem initLoadsTheImageOrRefusesIt : Obligations.InitLoadsTheImageOrRefusesIt := by
  unfold Obligations.InitLoadsTheImageOrRefusesIt
  refine ⟨fun s image => ⟨fun hle => ?_, fun hgt => ⟨?_, ?_⟩⟩, fun s c => ?_⟩
  · refine ⟨_, congrArg Outcome.next (s.init_of_le hle), fun k hk => ?_, fun a ha => ?_, rfl, ?_⟩
    · exact Memory.read_writeAll_of_mem [] _ _ _ (imageCells_nodup hle) (mem_imageCells hk)
    · exact Memory.read_writeAll_of_notMem [] _ a (notMem_imageCells hle ha)
    · simp [changesOnly_iff, State.readReg]
  · exact congrArg Outcome.next (s.init_of_gt hgt)
  · simp [CoreState.initial, State.initial_of_gt hgt]
  · rw [CoreState.isInitial_iff]
    refine exists_congr fun image => ⟨?_, ?_⟩
    · rintro ⟨hle, rfl⟩
      exact ⟨_, hle, congrArg Outcome.next (s.init_of_le hle), rfl⟩
    · rintro ⟨t, hle, ht, rfl⟩
      have h : t = s.init image := (Outcome.next.inj ht).symm
      rw [h, s.init_of_le hle]
      exact ⟨hle, rfl⟩

/-! ## The labelled transition system (R200) -/

theorem execWithDraw_total (r : Byte) (i : Instr) (s : State) : ∃ t, execWithDraw r i s = .next t := by
  by_cases h : ∃ x nn, i = .rndVxNN x nn
  · obtain ⟨x, nn, rfl⟩ := h
    exact ⟨_, execWithDraw_rnd r x nn s⟩
  · rw [execWithDraw_of_ne r i s fun x nn e => h ⟨x, nn, e⟩]
    exact exec_total i s

/-- With the draw as an input, what a step does to the core does not depend on the source's counter. -/
theorem stepWithDraw_withSource (r : Byte) (s : State) :
    coreOutcome (stepWithDraw r s.toCoreState.withSource) = coreOutcome (stepWithDraw r s) := by
  have run : s.toCoreState.withSource.run = s.run := rfl
  have range : s.toCoreState.withSource.fetchInRange = s.fetchInRange := rfl
  have word : s.toCoreState.withSource.fetchWord = s.fetchWord := rfl
  unfold stepWithDraw stepBy
  rw [run, range, word]
  rcases s.run with _ | _ | _
  · rcases s.fetchInRange
    · rfl
    · rcases decodeWord s.fetchWord with e | i
      · rfl
      · exact execWithDraw_withSource r i s
  · rfl
  · rfl

theorem State.keyDown_withSource (s : State) (k : KeyIdx) :
    (s.toCoreState.withSource.keyDown k).toCoreState = (s.keyDown k).toCoreState := by
  by_cases h : s.run = .awaitingKey
  · rw [s.keyDown_of_awaitingKey k h, s.toCoreState.withSource.keyDown_of_awaitingKey k h]
    rfl
  · rw [s.keyDown_of_ne k h, s.toCoreState.withSource.keyDown_of_ne k h]
    rfl

/-- An operation, seen on the core, is the transition of its label. -/
theorem transition_of_hostOp {op : HostOp} {s t : State} {l : Label}
    (hl : op.label (Config.randomByte s.draws) = some l) (h : hostOp op s = .next t) :
    s.toCoreState.transition l = .next t.toCoreState := by
  cases op with
  | step =>
    cases hl
    have hstep : stepWithDraw (Config.randomByte s.draws) s = .next t := (step_eq_stepWithDraw s).symm.trans h
    exact (stepWithDraw_withSource _ s).trans (congrArg coreOutcome hstep)
  | tickTimers => cases hl; cases h; rfl
  | keyDown k => cases hl; cases h; exact congrArg Outcome.next (s.keyDown_withSource k)
  | keyUp k => cases hl; cases h; rfl
  | init image => cases hl

/-- Every label has a transition from every state of the core. -/
theorem CoreState.transition_total (c : CoreState) (l : Label) : ∃ d, c.transition l = .next d := by
  cases l with
  | step r =>
    obtain ⟨t, ht⟩ := stepBy_total (execWithDraw_total r) c.withSource
    exact ⟨t.toCoreState, congrArg coreOutcome ht⟩
  | _ => exact ⟨_, rfl⟩

/-- Settles O60: each operation is its label's transition, and of a step's instructions only RND takes the draw. -/
theorem operationsAreTransitionsOfTheCore : Obligations.OperationsAreTransitionsOfTheCore := by
  unfold Obligations.OperationsAreTransitionsOfTheCore
  refine ⟨fun op s l hl => ?_, CoreState.transition_total, fun c r hnone => ?_⟩
  · obtain ⟨t, ht⟩ := hostOp_total op s
    exact ⟨t, ht, transition_of_hostOp hl ht⟩
  · refine congrArg coreOutcome (stepBy_congr _ _ c.withSource fun i hi => ?_)
    have hne : ∀ x nn, i ≠ .rndVxNN x nn := fun x nn e => hnone x nn (e ▸ hi)
    rw [execWithDraw_of_ne r i _ hne, execWithDraw_of_ne _ i _ hne]

end Sys2Proof.Machine

/-! # Proofs of the remaining statements: registers and arithmetic (R20 to R22 of 10_state.md, 41_alu.md) -/

namespace Sys2Proof.Machine

open Host (Outcome)

/-! ## One result, and a result with its flag -/

section
variable (s : State) (x : RegIdx) (v : Byte) (b : Bool)

/-- The register file, as numbers, after an instruction that writes one register and advances. -/
theorem State.toNat_readReg_writeReg_advance (r : RegIdx) :
    ((s.writeReg x v).advance.readReg r).toNat = if r = x then v.toNat else (s.readReg r).toNat := by
  rw [State.readReg_advance, State.readReg_writeReg]
  split <;> rfl

theorem flagByte_toNat : (flagByte b).toNat = b.toNat := by cases b <;> rfl

/-- The register file, as numbers, after an instruction that writes a result, then its flag, and advances (R153). -/
theorem State.toNat_readReg_writeResultThenFlag_advance (r : RegIdx) :
    ((s.writeResultThenFlag x v b).advance.readReg r).toNat =
      if r = 0xF#4 then b.toNat else if r = x then v.toNat else (s.readReg r).toNat := by
  rw [State.readReg_advance, State.readReg_writeResultThenFlag, ← flagByte_toNat]
  split
  · rfl
  · split <;> rfl

theorem State.writeResultThenFlag_advance_changesOnly :
    ChangesOnly [.regs, .pc] s (s.writeResultThenFlag x v b).advance := by
  simp [changesOnly_iff]

end

/-- Settles O22: each is one register write, and the value written is known as a number. -/
theorem addImmediateCopyAndLogicWriteNoFlag : Obligations.AddImmediateCopyAndLogicWriteNoFlag := by
  unfold Obligations.AddImmediateCopyAndLogicWriteNoFlag
  intro s x y nn p hp
  have writes : ∃ v : Byte, exec p.1 s = .next (s.writeReg x v).advance ∧ v.toNat = p.2 := by
    simp only [List.mem_cons, List.not_mem_nil, or_false] at hp
    rcases hp with rfl | rfl | rfl | rfl | rfl
    · exact ⟨_, exec_addVxNN s x nn, BitVec.toNat_add _ _⟩
    · exact ⟨_, exec_ldVxVy s x y, rfl⟩
    · exact ⟨_, exec_orVxVy s x y, BitVec.toNat_or _ _⟩
    · exact ⟨_, exec_andVxVy s x y, BitVec.toNat_and _ _⟩
    · exact ⟨_, exec_xorVxVy s x y, BitVec.toNat_xor _ _⟩
  obtain ⟨v, hexec, hv⟩ := writes
  exact ⟨_, hexec, fun r => by rw [State.toNat_readReg_writeReg_advance, hv], rfl, s.writeReg_advance_changesOnly x v⟩

/-! ## Carries, borrows and lost bits as numbers -/

section
variable (a b : Byte)

theorem addCarry_toNat : (addCarry a b).toNat = if 255 < a.toNat + b.toNat then 1 else 0 := by
  rw [addCarry]
  split <;> simp_all

theorem noBorrow_toNat : (noBorrow a b).toNat = if b.toNat ≤ a.toNat then 1 else 0 := by
  rw [noBorrow]
  split <;> simp_all

theorem shrOut_toNat : (shrOut a).toNat = a.toNat % 2 := by revert a; decide

theorem shlOut_toNat : (shlOut a).toNat = a.toNat / 128 := by revert a; decide

/-- A difference modulo 256 by its two cases. -/
theorem toNat_sub_byte : (a - b).toNat = if b.toNat ≤ a.toNat then a.toNat - b.toNat else a.toNat + 256 - b.toNat := by
  have := a.isLt
  have := b.isLt
  rw [BitVec.toNat_sub]
  split <;> omega

end

/-- Settles O23: a result, then its carry. -/
theorem addWritesSumThenCarry : Obligations.AddWritesSumThenCarry := by
  unfold Obligations.AddWritesSumThenCarry
  refine fun s x y => ⟨_, exec_addVxVy s x y, fun r => ?_, rfl, s.writeResultThenFlag_advance_changesOnly x _ _⟩
  rw [State.toNat_readReg_writeResultThenFlag_advance, addCarry_toNat, BitVec.toNat_add]

/-- Settles O24: both write a difference, then its no-borrow flag. -/
theorem subtractsWriteDifferenceThenNoBorrow : Obligations.SubtractsWriteDifferenceThenNoBorrow := by
  unfold Obligations.SubtractsWriteDifferenceThenNoBorrow
  intro s x y p hp
  have subtracts : ∃ a b : Byte, exec p.1 s = .next (s.writeResultThenFlag x (a - b) (noBorrow a b)).advance ∧
      p.2 = (a.toNat, b.toNat) := by
    simp only [List.mem_cons, List.not_mem_nil, or_false] at hp
    rcases hp with rfl | rfl
    · exact ⟨_, _, exec_subVxVy s x y, rfl⟩
    · exact ⟨_, _, exec_subnVxVy s x y, rfl⟩
  obtain ⟨a, b, hexec, hp⟩ := subtracts
  refine ⟨_, hexec, fun r => ?_, rfl, s.writeResultThenFlag_advance_changesOnly x _ _⟩
  rw [State.toNat_readReg_writeResultThenFlag_advance, noBorrow_toNat, toNat_sub_byte, hp]

/-- Settles O25: both write a shifted value, then the bit it lost. -/
theorem shiftsWriteResultThenLostBit : Obligations.ShiftsWriteResultThenLostBit := by
  unfold Obligations.ShiftsWriteResultThenLostBit
  intro s x y p hp
  have shifts : ∃ (v : Byte) (b : Bool), exec p.1 s = .next (s.writeResultThenFlag x v b).advance ∧
      p.2 = (v.toNat, b.toNat) := by
    simp only [List.mem_cons, List.not_mem_nil, or_false] at hp
    rcases hp with rfl | rfl
    · refine ⟨_, _, exec_shrVx s x y, ?_⟩
      rw [shrOut_toNat, BitVec.toNat_ushiftRight, Nat.shiftRight_eq_div_pow]
    · refine ⟨_, _, exec_shlVx s x y, ?_⟩
      rw [shlOut_toNat, BitVec.toNat_shiftLeft, Nat.shiftLeft_eq]
  obtain ⟨v, b, hexec, hp⟩ := shifts
  refine ⟨_, hexec, fun r => ?_, rfl, s.writeResultThenFlag_advance_changesOnly x _ _⟩
  rw [State.toNat_readReg_writeResultThenFlag_advance, hp]

/-- A difference is the low byte, and its no-borrow flag the carry, of the sum with the complement and 1 (R152). -/
theorem sub_eq_add_not (a b : Byte) : (noBorrow a b).toNat = (a.toNat + (~~~b).toNat + 1) / 256 ∧
    (a - b).toNat = (a.toNat + (~~~b).toNat + 1) % 256 := by
  have := a.isLt
  have := b.isLt
  rw [noBorrow_toNat, toNat_sub_byte, BitVec.toNat_not]
  constructor <;> split <;> omega

/-- The registers after a subtraction `a - b`, by the addition of the complement and 1 (R152). -/
theorem State.toNat_readReg_subtract (s : State) (x : RegIdx) (a b : Byte) :
    ((s.writeResultThenFlag x (a - b) (noBorrow a b)).advance.readReg 0xF#4).toNat =
      (a.toNat + (~~~b).toNat + 1) / 256 ∧
    (x ≠ 0xF#4 → ((s.writeResultThenFlag x (a - b) (noBorrow a b)).advance.readReg x).toNat =
      (a.toNat + (~~~b).toNat + 1) % 256) := by
  obtain ⟨hflag, hdiff⟩ := sub_eq_add_not a b
  constructor
  · rw [State.toNat_readReg_writeResultThenFlag_advance, if_pos rfl, hflag]
  · intro hx
    rw [State.toNat_readReg_writeResultThenFlag_advance, if_neg hx, if_pos rfl, hdiff]

/-- Settles O26: both subtract with their no-borrow flag, which is addition of the complement. -/
theorem noBorrowIsCarryOfComplementAddition : Obligations.NoBorrowIsCarryOfComplementAddition := by
  unfold Obligations.NoBorrowIsCarryOfComplementAddition
  intro s x y p hp
  simp only [List.mem_cons, List.not_mem_nil, or_false] at hp
  rcases hp with rfl | rfl
  · exact ⟨_, exec_subVxVy s x y, s.toNat_readReg_subtract x _ _⟩
  · exact ⟨_, exec_subnVxVy s x y, s.toNat_readReg_subtract x _ _⟩

/-! ## The random byte (R151) -/

section
variable (s : State) (x : RegIdx) (nn drawn : Byte)

theorem State.readReg_rndWith (r : RegIdx) :
    (s.rndWith x nn drawn).readReg r = if r = x then drawn &&& nn else s.readReg r := s.readReg_writeReg x r _

theorem State.rndWith_changesOnly : ChangesOnly [.regs, .pc, .draws] s (s.rndWith x nn drawn) := by
  simp [changesOnly_iff, State.rndWith, State.readByte]

end

/-- Settles O27: RND is one masked register write, with the drawn byte as the free value or as an input. -/
theorem randomByteIsMasked : Obligations.RandomByteIsMasked := by
  unfold Obligations.RandomByteIsMasked
  refine fun s x nn => ⟨⟨_, exec_rndVxNN s x nn, s.readReg_rndWith x nn _, ?_, ?_, rfl, rfl, s.rndWith_changesOnly x nn _⟩,
    fun drawn => ⟨_, execWithDraw_rnd drawn x nn s, s.readReg_rndWith x nn drawn, rfl, s.rndWith_changesOnly x nn drawn⟩⟩
  · rw [State.readReg_rndWith, if_pos rfl, BitVec.and_assoc, BitVec.and_not_self]
    exact BitVec.and_zero
  · rintro rfl
    rw [State.readReg_rndWith, if_pos rfl, BitVec.and_zero]

/-! ## Destination registers (R21, R22) -/

/-- LD Vx, [I] writes no register above X (R165). -/
theorem State.readReg_writeRegs_blockLoads_of_lt (s : State) {x r : RegIdx} (h : x.toNat < r.toNat) :
    (s.writeRegs (s.blockLoads x)).readReg r = s.readReg r := by
  apply State.readReg_writeRegs_of_notMem
  rw [State.blockLoads_fst, mem_blockRegs]
  omega

/-- Settles O28: the register frame where an instruction writes no register, and the write itself where it does. -/
theorem onlyDestinationRegistersChange : Obligations.OnlyDestinationRegistersChange := by
  unfold Obligations.OnlyDestinationRegistersChange
  intro i s t r h hr
  cases i with
  | ldVxNN | addVxNN | ldVxVy | orVxVy | andVxVy | xorVxVy | ldVxDT =>
    cases h
    exact (s.readReg_writeReg _ r _).trans (if_neg hr)
  | rndVxNN x nn =>
    cases h
    exact (s.readReg_rndWith x nn _ r).trans (if_neg hr)
  | addVxVy | subVxVy | shrVx | subnVxVy | shlVx =>
    cases h
    obtain ⟨hx, hf⟩ := not_or.mp hr
    exact (s.readReg_writeResultThenFlag _ r _ _).trans ((if_neg hf).trans (if_neg hx))
  | drwVxVyN =>
    cases h
    exact (State.readReg_writeReg _ flagReg r _).trans (if_neg hr)
  | ldVxMem x =>
    cases h
    exact s.readReg_writeRegs_blockLoads_of_lt (not_le.mp hr)
  | _ => exact exec_same_of_notMem h (p := .regs) (by decide) (by simp [partsWritten]) r

end Sys2Proof.Machine

/-! # Proofs of the remaining statements: control transfer (40_control.md), the key skips, the key wait and the timers
(44_keypad_timers.md) -/

namespace Sys2Proof.Machine

open Host (Outcome)

/-! ## CALL and RET (R122, R124) -/

/-- Settles O13: a CALL with room writes the entry at SP, a full stack raises. -/
theorem callPushesTheReturnAddress : Obligations.CallPushesTheReturnAddress := by
  unfold Obligations.CallPushesTheReturnAddress
  refine fun s nnn => ⟨fun hsp => ?_, fun hsp => ?_⟩
  · refine ⟨_, exec_call_of_lt s nnn hsp, rfl, zextAddr_toNat nnn, fun k hk => ?_, ?_⟩
    · simp only [Vector.getElem_set, eq_comm]
    · simp [changesOnly_iff, State.readReg, State.readByte]
  · exact ⟨_, exec_call_of_full s nnn hsp, rfl, rfl, s.raise_changesOnly _ _⟩

/-- Settles O14: a RET with a live entry reads it, an empty stack raises. -/
theorem returnPopsTheReturnAddress : Obligations.ReturnPopsTheReturnAddress := by
  unfold Obligations.ReturnPopsTheReturnAddress
  refine fun s => ⟨fun hsp => ⟨_, exec_ret_of_pos s hsp, rfl, rfl, ?_⟩, fun hsp => ?_⟩
  · simp [changesOnly_iff, State.readReg, State.readByte]
  · exact ⟨_, exec_ret_of_empty s hsp, rfl, rfl, s.raise_changesOnly _ _⟩

/-- Settles O15: the RET reads the entry that the CALL wrote at SP, and takes SP back. -/
theorem callThenReturnComesBack : Obligations.CallThenReturnComesBack := by
  unfold Obligations.CallThenReturnComesBack
  intro s nnn hsp
  refine ⟨_, _, exec_call_of_lt s nnn hsp, exec_ret_of_pos _ (Nat.succ_pos _), ?_, rfl, fun k hk hne => ?_, ?_⟩
  · exact Vector.getElem_set_self hsp
  · exact Vector.getElem_set_ne hsp hk hne.symm
  · simp [changesOnly_iff, State.readReg, State.readByte]

/-! ## JP V0, SYS and the key skips (R121, R129, R190, R191) -/

/-- Settles O17: one `setPc` of the unreduced sum, above the fetch range where it exceeds 0xFFE. -/
theorem jumpWithOffsetAddsRegisterZero : Obligations.JumpWithOffsetAddsRegisterZero := by
  unfold Obligations.JumpWithOffsetAddsRegisterZero
  refine fun s nnn => ⟨_, exec_jpV0NNN s nnn, jpV0_toNat nnn _, s.setPc_changesOnly _,
    fun hrun hout => step_of_not_fetchable hrun fun hpc => ?_⟩
  rw [PcFetchable, State.setPc_pc, jpV0_toNat] at hpc
  omega

/-- Settles O18: SYS is one `advance`. -/
theorem sysOnlyAdvancesPc : Obligations.SysOnlyAdvancesPc := by
  unfold Obligations.SysOnlyAdvancesPc
  exact fun s nnn => ⟨_, exec_sys s nnn, s.advance_pc, s.advance_changesOnly⟩

/-- A key is pressed when the value names it and its flag is down (R190, D17). -/
theorem State.keyPressed_iff (s : State) (v : Byte) :
    s.keyPressed v = true ↔ v.toNat ≤ 15 ∧ s.readKey (v.setWidth 4) = true := by
  rcases Nat.lt_or_ge v.toNat 16 with h | h
  · have hk : v.toNat = (v.setWidth 4).toNat := by
      rw [BitVec.toNat_setWidth]
      omega
    rw [s.keyPressed_of_toNat_eq hk]
    exact (and_iff_right (by omega)).symm
  · have hnone : s.keyPressed v = false := dif_neg (by omega)
    rw [hnone]
    exact ⟨fun e => absurd e (by decide), fun e => absurd e.1 (by omega)⟩

/-- Settles O20: both are one `skipIf` on the key that the register names. -/
theorem keySkipsTestTheNamedKey : Obligations.KeySkipsTestTheNamedKey := by
  unfold Obligations.KeySkipsTestTheNamedKey
  intro s x pressed hp
  obtain rfl : pressed = s.keyPressed (s.readReg x) := Bool.eq_iff_iff.mpr (hp.trans (s.keyPressed_iff _).symm)
  refine ⟨⟨_, exec_skpVx s x, s.skipIf_pc _, s.skipIf_changesOnly _⟩,
    ⟨_, exec_sknpVx s x, ?_, s.skipIf_changesOnly _⟩⟩
  rw [State.skipIf_pc]
  cases s.keyPressed (s.readReg x) <;> rfl

/-! ## The key wait and the timers (R192 to R195) -/

/-- Settles O46: the wait is entered with `pc` past the instruction, and a waiting step does nothing. -/
theorem keyWaitSuspendsExecution : Obligations.KeyWaitSuspendsExecution := by
  unfold Obligations.KeyWaitSuspendsExecution
  refine fun s x => ⟨_, exec_ldVxK s x, rfl, rfl, rfl, ?_, step_of_awaitingKey _ rfl, rfl⟩
  simp [changesOnly_iff, State.readReg, State.readByte]

/-- Settles O48: each copies one byte and advances. -/
theorem timerMovesCopyBetweenTimersAndRegisters : Obligations.TimerMovesCopyBetweenTimersAndRegisters := by
  unfold Obligations.TimerMovesCopyBetweenTimersAndRegisters
  refine fun s x => ⟨⟨_, exec_ldVxDT s x, fun r => s.readReg_writeReg x r s.dt, rfl, ?_⟩,
    ⟨_, exec_ldDTVx s x, rfl, rfl, ?_⟩, ⟨_, exec_ldSTVx s x, rfl, rfl, ?_, fun render => ?_⟩⟩
  · exact s.writeReg_advance_changesOnly x s.dt
  · simp [changesOnly_iff, State.readReg, State.readByte]
  · simp [changesOnly_iff, State.readReg, State.readByte]
  · simp [State.outputs]

end Sys2Proof.Machine

/-! # Proofs of the remaining statements: `I` and memory (R23 of 10_state.md, 20_memory.md, 42_memory_index.md), and the state
after reset (R40) -/

namespace Sys2Proof.Machine

open Host (Outcome)

/-! ## The address register (R160 to R162) -/

theorem State.setI_advance_changesOnly (s : State) (w : Word) : ChangesOnly [.I, .pc] s (s.setI w).advance := by
  simp [changesOnly_iff]

theorem zextByte_toNat (v : Byte) : (zextByte v).toNat = v.toNat := BitVec.toNat_setWidth_of_le (by decide)

/-- The glyph address of any byte fits in 16 bits (R162). -/
theorem glyphAddr_toNat (v : Byte) : (glyphAddr v).toNat = 5 * v.toNat := by
  have := v.isLt
  rw [glyphAddr, fontBase, fontStride, BitVec.toNat_ofNat]
  omega

/-- Settles O35: each is one `setI`, and the value set is known as a number. -/
theorem addressRegisterInstructionsSetI : Obligations.AddressRegisterInstructionsSetI := by
  unfold Obligations.AddressRegisterInstructionsSetI
  intro s x nnn p hp
  have sets : ∃ w : Word, exec p.1 s = .next (s.setI w).advance ∧ w.toNat = p.2 := by
    simp only [List.mem_cons, List.not_mem_nil, or_false] at hp
    rcases hp with rfl | rfl | rfl
    · exact ⟨_, exec_ldINNN s nnn, zextAddr_toNat nnn⟩
    · exact ⟨_, exec_addIVx s x, by rw [BitVec.toNat_add, zextByte_toNat]⟩
    · exact ⟨_, exec_ldFVx s x, glyphAddr_toNat _⟩
  obtain ⟨w, hexec, hw⟩ := sets
  exact ⟨_, hexec, hw, rfl, s.setI_advance_changesOnly w⟩

/-! ## Stores and loads (R163 to R165) -/

/-- The frame of a store that raises nothing. -/
theorem State.with_mem_advance_changesOnly (s : State) (mem : Memory) :
    ChangesOnly [.mem, .pc] s { s with mem := mem }.advance := by
  simp [changesOnly_iff, State.readReg]

/-- A store to `EA(0)` up to `EA(n - 1)`, all unprotected, writes its cells, leaves every other byte and advances. -/
theorem State.storeCells_writes (s : State) {cells : List (Addr × Byte)} {n : Nat}
    (at_ : cells.map Prod.fst = (List.range n).map s.ea) (nodup : (cells.map Prod.fst).Nodup)
    (allowed : ∀ k < n, 0x1FF < (s.ea k).toNat) :
    (∀ a v, (a, v) ∈ cells → (s.storeCells cells).readByte a = v) ∧
    (∀ a, (∀ k < n, a ≠ s.ea k) → (s.storeCells cells).readByte a = s.readByte a) ∧
    (s.storeCells cells).pc = s.pc + 2#16 ∧ ChangesOnly [.mem, .pc] s (s.storeCells cells) := by
  rw [s.storeCells_of_allowed cells (s.cells_allowed at_ allowed)]
  refine ⟨fun a v hmem => Memory.read_writeAll_of_mem s.mem cells a v nodup hmem,
    fun a ha => Memory.read_writeAll_of_notMem s.mem cells a fun hmem => ?_, rfl, s.with_mem_advance_changesOnly _⟩
  rw [at_] at hmem
  obtain ⟨k, hk, rfl⟩ := List.mem_map.mp hmem
  exact ha k (List.mem_range.mp hk) rfl

/-- A decimal digit fits in a byte. -/
theorem digit_toNat {d : Nat} (h : d < 10) : (BitVec.ofNat 8 d).toNat = d := by
  rw [BitVec.toNat_ofNat]
  omega

/-- Settles O36: the three cells of the digits are stored. -/
theorem digitStoreWritesThreeBytes : Obligations.DigitStoreWritesThreeBytes := by
  unfold Obligations.DigitStoreWritesThreeBytes
  intro s x allowed
  obtain ⟨written, others, pc, frame⟩ := s.storeCells_writes (s.bcdCells_fst (s.readReg x)) (s.bcdCells_nodup _)
    fun k hk => allowed k (by omega)
  have hv := (s.readReg x).isLt
  refine ⟨_, exec_ldBVx s x, ?_, ?_, ?_, fun a ha => others a fun k hk => ha k (by omega), pc, frame⟩
  · rw [written (s.ea 0) (BitVec.ofNat 8 ((s.readReg x).toNat / 100)) (by simp [State.bcdCells_eq]),
      digit_toNat (by omega)]
  · rw [written (s.ea 1) (BitVec.ofNat 8 ((s.readReg x).toNat / 10 % 10)) (by simp [State.bcdCells_eq]),
      digit_toNat (by omega)]
  · rw [written (s.ea 2) (BitVec.ofNat 8 ((s.readReg x).toNat % 10)) (by simp [State.bcdCells_eq]),
      digit_toNat (by omega)]

theorem State.mem_blockCells (s : State) {x r : RegIdx} (h : r.toNat ≤ x.toNat) :
    (s.ea r.toNat, s.readReg r) ∈ s.blockCells x :=
  List.mem_map.mpr ⟨r, (mem_blockRegs x r).mpr h, rfl⟩

/-- Settles O37: the cells of the register block are stored. -/
theorem blockStoreWritesTheRegisters : Obligations.BlockStoreWritesTheRegisters := by
  unfold Obligations.BlockStoreWritesTheRegisters
  intro s x allowed
  obtain ⟨written, others, pc, frame⟩ := s.storeCells_writes (s.blockCells_fst_range x) (s.blockCells_nodup x)
    fun k hk => allowed k (by omega)
  exact ⟨_, exec_ldMemVx s x, fun r hr => written _ _ (s.mem_blockCells hr),
    fun a ha => others a fun k hk => ha k (by omega), pc, frame⟩

/-- An effective address, spelled out (R67). -/
theorem State.ea_eq_ofNat_mod (s : State) (k : Nat) : s.ea k = BitVec.ofNat 12 ((s.I.toNat + k) % 4096) := by
  apply BitVec.eq_of_toNat_eq
  rw [State.ea_toNat, BitVec.toNat_ofNat]
  omega

/-- The registers after LD Vx, [I] (R165). -/
theorem State.readReg_writeRegs_blockLoads (s : State) (x r : RegIdx) : (s.writeRegs (s.blockLoads x)).readReg r =
    if r.toNat ≤ x.toNat then s.readByte (s.ea r.toNat) else s.readReg r := by
  split
  · next hle =>
    refine s.readReg_writeRegs_of_mem _ r _ ?_ (List.mem_map.mpr ⟨r, (mem_blockRegs x r).mpr hle, rfl⟩)
    rw [State.blockLoads_fst]
    exact blockRegs_nodup x
  · next hgt => exact s.readReg_writeRegs_blockLoads_of_lt (not_le.mp hgt)

/-- Settles O39: one write per register of the block, of the byte at its effective address. -/
theorem blockLoadReadsTheBytes : Obligations.BlockLoadReadsTheBytes := by
  unfold Obligations.BlockLoadReadsTheBytes
  refine fun s x => ⟨_, exec_ldVxMem s x, fun r => ?_, ?_, ?_⟩
  · rw [← State.ea_eq_ofNat_mod]
    exact s.readReg_writeRegs_blockLoads x r
  · rw [State.writeRegs_eq]
    rfl
  · rw [State.writeRegs_eq]
    simp [changesOnly_iff, State.readByte]

/-- Settles O42: the two bytes fetched at `pc + 2` are the first two the store wrote. -/
theorem storedBytesAreFetchedNext : Obligations.StoredBytesAreFetchedNext := by
  unfold Obligations.StoredBytesAreFetchedNext
  intro s x allowed hx hI
  obtain ⟨t, hexec, written, _, pc, _⟩ := blockStoreWritesTheRegisters s x allowed
  have first : BitVec.ofNat 12 t.pc.toNat = s.ea (0x0#4).toNat := by
    apply BitVec.eq_of_toNat_eq
    rw [pc, State.ea_toNat, BitVec.toNat_ofNat, BitVec.toNat_add, BitVec.toNat_ofNat, BitVec.toNat_ofNat]
    omega
  have second : BitVec.ofNat 12 (t.pc.toNat + 1) = s.ea (0x1#4).toNat := by
    apply BitVec.eq_of_toNat_eq
    rw [pc, State.ea_toNat, BitVec.toNat_ofNat, BitVec.toNat_add, BitVec.toNat_ofNat, BitVec.toNat_ofNat]
    omega
  exact ⟨t, hexec, by rw [wordAtPc, first, second, written 0x0#4 (Nat.zero_le _), written 0x1#4 hx]⟩

/-- Settles O41: a canonical memory lists exactly the cells that its reads show. -/
theorem canonicalMemoriesThatReadAlikeAreEqual : Obligations.CanonicalMemoriesThatReadAlikeAreEqual := by
  unfold Obligations.CanonicalMemoriesThatReadAlikeAreEqual
  intro m n hm hn h
  have listed {m n : Memory} (hm : Memory.wf m = true) (hn : Memory.wf n = true)
      (h : ∀ a : Addr, Memory.read m a = Memory.read n a) (c : Host.Cell) (hc : c ∈ m) : c ∈ n := by
    have hlt := Memory.lt_of_mem_of_wf m hm c hc
    obtain ⟨hread, hne⟩ := (Memory.mem_iff_of_wf m hm c).mp hc
    have ha := h (BitVec.ofNat 12 c.1)
    rw [Memory.read, Memory.read, BitVec.toNat_ofNat, Nat.mod_eq_of_lt hlt] at ha
    exact (Memory.mem_iff_of_wf n hn c).mpr ⟨ha.symm.trans hread, hne⟩
  exact Memory.eq_of_rising_of_mem_iff m n ((Memory.wf_iff m).mp hm).1 ((Memory.wf_iff n).mp hn).1 fun c =>
    ⟨listed hm hn h c, listed hn hm (fun a => (h a).symm) c⟩

/-! ## Bits 15 to 12 of `I` (R23) -/

section
variable (s : State) {v : Word} (hv : v.toNat % 4096 = s.I.toNat % 4096)

include hv in
/-- Effective addresses see `I` modulo 4096 only (R67). -/
theorem State.ea_with_I (k : Nat) : { s with I := v }.ea k = s.ea k := by
  apply BitVec.eq_of_toNat_eq
  rw [State.ea_toNat, State.ea_toNat]
  show (v.toNat + k) % 4096 = _
  omega

/-- A store ignores `I`, once its cells are known. -/
theorem State.storeCells_with_I (cells : List (Addr × Byte)) :
    { s with I := v }.storeCells cells = { s.storeCells cells with I := v } := by
  unfold State.storeCells
  split <;> rfl

/-- Register writes ignore `I`. -/
theorem State.writeRegs_with_I (cells : List (RegIdx × Byte)) :
    { s with I := v }.writeRegs cells = { s.writeRegs cells with I := v } := by
  induction cells generalizing s with
  | nil => rfl
  | cons c cs ih => exact ih (s.writeReg c.1 c.2)

/-- A store keeps `I`. -/
theorem State.storeCells_I (cells : List (Addr × Byte)) : (s.storeCells cells).I = s.I := by
  rcases s.storeCells_frame cells with ⟨c, w, h⟩ | h
  · rw [h, State.raise_I]
  · exact h .I (by decide)

include hv in
/-- The same store with other high bits of `I`. -/
theorem State.storeCells_congr_I {cells cells' : List (Addr × Byte)} (h : cells' = cells) : ∃ v' : Word,
    { s with I := v }.storeCells cells' = { s.storeCells cells with I := v' } ∧
    v'.toNat % 4096 = (s.storeCells cells).I.toNat % 4096 :=
  ⟨v, by rw [h]; exact s.storeCells_with_I cells, by rw [s.storeCells_I]; exact hv⟩

end

/-- Settles O40: effective addresses are all that an instruction but ADD I takes from `I`, and ADD I keeps the
difference in the high bits. -/
theorem highBitsOfIReachNothing : Obligations.HighBitsOfIReachNothing := by
  unfold Obligations.HighBitsOfIReachNothing
  intro i s v hv
  have ea := s.ea_with_I hv
  cases i with
  | ret =>
    rcases Nat.eq_zero_or_pos s.sp.val with h | h
    · exact ⟨_, v, exec_ret_of_empty s h, exec_ret_of_empty _ h, hv⟩
    · exact ⟨_, v, exec_ret_of_pos s h, exec_ret_of_pos { s with I := v } h, hv⟩
  | call nnn =>
    rcases Nat.lt_or_ge s.sp.val 16 with h | h
    · exact ⟨_, v, exec_call_of_lt s nnn h, exec_call_of_lt { s with I := v } nnn h, hv⟩
    · have h' : s.sp.val = 16 := by omega
      exact ⟨_, v, exec_call_of_full s nnn h', exec_call_of_full _ nnn h', hv⟩
  | ldINNN nnn => exact ⟨_, zextAddr nnn, rfl, rfl, rfl⟩
  | ldFVx x => exact ⟨_, glyphAddr (s.readReg x), rfl, rfl, rfl⟩
  | addIVx x =>
    refine ⟨_, v + zextByte (s.readReg x), rfl, rfl, ?_⟩
    show (v + _).toNat % 4096 = (s.I + _).toNat % 4096
    rw [BitVec.toNat_add, BitVec.toNat_add]
    omega
  | ldBVx x =>
    have same : { s with I := v }.bcdCells (s.readReg x) = s.bcdCells (s.readReg x) := by
      simp only [State.bcdCells_eq, ea]
    obtain ⟨v', h, hv'⟩ := s.storeCells_congr_I hv same
    exact ⟨_, v', rfl, congrArg Outcome.next h, hv'⟩
  | ldMemVx x =>
    have same : { s with I := v }.blockCells x = s.blockCells x := by
      simp only [State.blockCells, ea]
      rfl
    obtain ⟨v', h, hv'⟩ := s.storeCells_congr_I hv same
    exact ⟨_, v', rfl, congrArg Outcome.next h, hv'⟩
  | ldVxMem x =>
    have same : { s with I := v }.blockLoads x = s.blockLoads x := by
      simp only [State.blockLoads, ea]
      rfl
    refine ⟨_, v, rfl, ?_, ?_⟩
    · rw [exec_ldVxMem, same, State.writeRegs_with_I]
      rfl
    · rw [State.writeRegs_eq]
      exact hv
  | drwVxVyN x y n =>
    have same (vx vy : Byte) : { s with I := v }.spritePixels vx vy n = s.spritePixels vx vy n := by
      simp only [State.spritePixels, State.spriteRowPixels, State.spriteBit, ea]
      rfl
    exact ⟨_, v, rfl, by rw [exec_drwVxVyN, same]; rfl, hv⟩
  | _ => exact ⟨_, v, rfl, rfl, hv⟩

/-! ## The state after reset (R40) -/

/-- Above the font, reset memory reads as 0 (R64). -/
theorem background_of_ge {a : Nat} (h : 0x50 ≤ a) : Memory.background a = 0x00#8 := by
  have hlen : fontGlyphs.flatten.length = 0x50 := by decide
  rw [Memory.background, if_neg (by simp [fontBase])]
  exact List.getD_eq_default _ _ (by rw [hlen, fontBase]; omega)

/-- Settles O54: the fields of `State.reset`, its replicated arrays, and the font by evaluation. -/
theorem resetStateIsAsTabled : Obligations.ResetStateIsAsTabled := by
  unfold Obligations.ResetStateIsAsTabled
  refine ⟨fun r => ?_, rfl, rfl, rfl, fun k hk => ?_, rfl, rfl, Framebuffer.pixel_blank, fun k => ?_, rfl, rfl, rfl, ?_,
    fun a ha => background_of_ge ha⟩
  · simp [State.readReg, State.reset]
  · simp [State.reset]
  · simp [State.readKey, State.reset]
  · decide

end Sys2Proof.Machine

/-! # Proofs of the remaining statements: drawing (R181, R182 of 43_display.md) -/

namespace Sys2Proof.Machine

open Host (Outcome)

/-! ## Covered pixels -/

/-- The sprite covers exactly the pixels that the drawing loop visits. -/
theorem spriteCovers_iff (s : State) (vx vy : Byte) (n : BitVec 4) (row : Fin 32) (col : Fin 64) :
    SpriteCovers s vx vy n row col ↔ (row, col) ∈ s.spritePixels vx vy n := by
  rw [State.mem_spritePixels]
  simp only [SpriteCovers, State.spriteBit, spriteRow, spriteCol, Prod.mk.injEq, Fin.ext_iff, Fin.val_ofNat]

section
variable (fb : Framebuffer) (ps : List (Fin 32 × Fin 64)) (nodup : ps.Nodup)
include nodup

/-- Drawing inverts the pixels of the list: a pixel ends lit when it was lit exactly if it is not among them. -/
theorem pixel_drawPixels_iff (row : Fin 32) (col : Fin 64) : (drawPixels fb ps).1.pixel row col = true ↔
    (fb.pixel row col = true ↔ (row, col) ∉ ps) := by
  rw [pixel_drawPixels fb ps nodup]
  by_cases h : (row, col) ∈ ps <;> simp [h]

theorem collision_drawPixels_iff :
    (drawPixels fb ps).2 = true ↔ ∃ row col, (row, col) ∈ ps ∧ fb.pixel row col = true := by
  rw [collision_drawPixels fb ps nodup, List.any_eq_true, Prod.exists]

/-- Drawing the same pixels twice restores the framebuffer (R181 corner case 7). -/
theorem drawPixels_drawPixels : (drawPixels (drawPixels fb ps).1 ps).1 = fb := by
  refine Framebuffer.ext_pixel fun row col => ?_
  rw [pixel_drawPixels _ ps nodup, pixel_drawPixels fb ps nodup, Bool.xor_assoc, Bool.xor_self, Bool.xor_false]

/-- The second of two equal draws collides exactly where a pixel of the list was dark. -/
theorem collision_second_drawPixels_iff :
    (drawPixels (drawPixels fb ps).1 ps).2 = true ↔ ∃ row col, (row, col) ∈ ps ∧ fb.pixel row col = false := by
  rw [collision_drawPixels_iff _ ps nodup]
  refine exists_congr fun row => exists_congr fun col => and_congr_right fun hmem => ?_
  rw [pixel_drawPixels fb ps nodup]
  simp [hmem]

end

/-! ## DRW (R181) -/

theorem flagByte_eq_one_iff (b : Bool) : flagByte b = 0x01#8 ↔ b = true := by cases b <;> decide

theorem flagByte_eq_zero_or_one (b : Bool) : flagByte b = 0x00#8 ∨ flagByte b = 0x01#8 := by
  cases b
  · exact .inl rfl
  · exact .inr rfl

/-- The state after DRW: the framebuffer with the pixels drawn, the collision in `x[15]`, and `pc` past the instruction. -/
def State.drawn (s : State) (ps : List (Fin 32 × Fin 64)) : State :=
  ({ s with fb := (drawPixels s.fb ps).1 }.writeReg flagReg (flagByte (drawPixels s.fb ps).2)).advance

theorem exec_drw_eq_drawn (s : State) (x y : RegIdx) (n : BitVec 4) :
    exec (.drwVxVyN x y n) s = .next (s.drawn (s.spritePixels (s.readReg x) (s.readReg y) n)) := rfl

section
variable (s : State) (ps : List (Fin 32 × Fin 64))

@[simp] theorem State.drawn_fb : (s.drawn ps).fb = (drawPixels s.fb ps).1 := rfl

theorem State.readReg_drawn (r : RegIdx) :
    (s.drawn ps).readReg r = if r = 0xF#4 then flagByte (drawPixels s.fb ps).2 else s.readReg r :=
  State.readReg_writeReg _ flagReg r _

/-- A DRW leaves the sprite it drew as it was. -/
theorem State.spritePixels_drawn (vx vy : Byte) (n : BitVec 4) :
    (s.drawn ps).spritePixels vx vy n = s.spritePixels vx vy n :=
  State.spritePixels_congr (t := s.drawn ps) rfl (fun _ => rfl) vx vy n

theorem State.drawn_changesOnly : ChangesOnly [.regs, .fb, .pc] s (s.drawn ps) := by
  simp [changesOnly_iff, State.drawn, State.readByte]

end

/-- Settles O44: the covered pixels are those the loop visits, each once. -/
theorem drawInvertsExactlyTheCoveredPixels : Obligations.DrawInvertsExactlyTheCoveredPixels := by
  unfold Obligations.DrawInvertsExactlyTheCoveredPixels
  intro s x y n
  have nodup := s.spritePixels_nodup (s.readReg x) (s.readReg y) n
  refine ⟨_, exec_drw_eq_drawn s x y n, fun row col => ?_, fun r hr => ?_, ?_, ?_, rfl, s.drawn_changesOnly _⟩
  · rw [State.drawn_fb, pixel_drawPixels_iff _ _ nodup, spriteCovers_iff]
  · rw [State.readReg_drawn, if_neg hr]
  · rw [State.readReg_drawn, if_pos rfl]
    exact flagByte_eq_zero_or_one _
  · rw [State.readReg_drawn, if_pos rfl, flagByte_eq_one_iff, collision_drawPixels_iff _ _ nodup]
    simp only [spriteCovers_iff]

/-- Settles O45: the second draw visits the same pixels as the first. -/
theorem drawingTwiceRestoresTheFramebuffer : Obligations.DrawingTwiceRestoresTheFramebuffer := by
  unfold Obligations.DrawingTwiceRestoresTheFramebuffer
  intro s x y n hx hy
  have nodup := s.spritePixels_nodup (s.readReg x) (s.readReg y) n
  obtain ⟨ps, hps⟩ : ∃ ps, s.spritePixels (s.readReg x) (s.readReg y) n = ps := ⟨_, rfl⟩
  have second : exec (.drwVxVyN x y n) (s.drawn ps) = .next ((s.drawn ps).drawn ps) := by
    rw [exec_drw_eq_drawn, State.readReg_drawn, State.readReg_drawn, if_neg hx, if_neg hy, State.spritePixels_drawn, hps]
  rw [hps] at nodup
  refine ⟨_, _, hps ▸ exec_drw_eq_drawn s x y n, second, ?_, ?_⟩
  · rw [State.drawn_fb, State.drawn_fb, drawPixels_drawPixels _ _ nodup]
  · rw [State.readReg_drawn, if_pos rfl, flagByte_eq_one_iff, State.drawn_fb,
      collision_second_drawPixels_iff _ _ nodup]
    simp only [spriteCovers_iff, hps]

end Sys2Proof.Machine
